-- ==== Sys2Proof/Word.lean ====
section
/-! DEFINITION. The widths of the pique core (00_scope.md R6, with W = 64 by 92_eei_decisions.md D1; log 9). -/

namespace Sys2Proof

/-- A register word, a program address, an operand field: W = 64 bits (R6, R8). -/
abbrev Word := BitVec 64

/-- An instruction word: IW = 3 * W + 8 = 200 bits (R70). -/
abbrev IWord := BitVec 200

/-- A byte of a host's program image (R86). -/
abbrev Byte := BitVec 8

end Sys2Proof
end

