-- ==== Sys2Proof/Syntax.lean ====
section
/-! DEFINITION. The eight instructions with their operands (00_scope.md R2, 30_encoding.md R73). -/

namespace Sys2Proof

/-- R2: "It has exactly eight instructions, and no extensions or options". Operands are W-bit fields in the order of
R73; each constructor's docstring gives the index namespace of its registers (20_memory.md R54). -/
inductive Instr where
  /-- `return` (R155): no operands. -/
  | ret
  /-- `call target_pc, frame_size, destination` (R151): `destination` is an index into the caller's window. -/
  | call (targetPc frameSize destination : Word)
  /-- `move d, s` (R101): both absolute. -/
  | move (d s : Word)
  /-- `move_immediate d, v` (R102): `d` absolute, `v` an immediate word (R74). -/
  | moveImmediate (d v : Word)
  /-- `add d, s` (R121): both frame-relative. -/
  | add (d s : Word)
  /-- `add_immediate d, v` (R122): `d` frame-relative, `v` an immediate word (R74). -/
  | addImmediate (d v : Word)
  /-- `increment r` (R123): `r` frame-relative. -/
  | increment (r : Word)
  /-- `decrement r` (R124): `r` frame-relative. -/
  | decrement (r : Word)
deriving DecidableEq, Repr

end Sys2Proof
end

