-- ==== Sys2Proof/Decode.lean ====
section
/-! DEFINITION. The instruction word, its decoder and its encoder (30_encoding.md R70 to R80), and the byte image in
which a host hands a program over (R86). -/

namespace Sys2Proof

/-! ## The fields of a word (R70) -/

/-- `op`, bits [7:0]. -/
def IWord.op (w : IWord) : BitVec 8 := w.extractLsb' 0 8

/-- `A`, bits [71:8]. -/
def IWord.fieldA (w : IWord) : Word := w.extractLsb' 8 64

/-- `B`, bits [135:72]. -/
def IWord.fieldB (w : IWord) : Word := w.extractLsb' 72 64

/-- `C`, bits [199:136]. -/
def IWord.fieldC (w : IWord) : Word := w.extractLsb' 136 64

/-- The word `{C, B, A, op}` (R8's concatenation, R70's fields). -/
def IWord.pack (op : BitVec 8) (a b c : Word) : IWord := c ++ b ++ a ++ op

/-! ## Decoding (R80) -/

/-- The words that are no instruction, by name. Each ends the step in Fault(ILLEGAL_INSTRUCTION). -/
inductive DecodeError where
  /-- `op` in 0x08 .. 0xFF (R76). -/
  | reservedOpcode (op : BitVec 8)
  /-- A legal `op` and a nonzero must-be-zero field (R77). -/
  | mustBeZero (op : BitVec 8)
  /-- Fewer than 25 bytes where a word should stand: a host's image only (R86), never a fetched word. -/
  | truncatedImage
deriving DecidableEq, Repr

/-- A decoded instruction, if the fields R73 marks MBZ are zero (R77). -/
def ifZero (op : BitVec 8) (mbz : Bool) (i : Instr) : Except DecodeError Instr :=
  if mbz then .ok i else .error (.mustBeZero op)

/-- R80's `Decode`, a total function of the 200-bit word; opcodes by R72, operands by R73. -/
def decodeWord (w : IWord) : Except DecodeError Instr :=
  let op := w.op
  let a := w.fieldA
  let b := w.fieldB
  let c := w.fieldC
  match op.toNat with
  | 0 => ifZero op (a == 0 && b == 0 && c == 0) .ret
  | 1 => .ok (.call a b c)
  | 2 => ifZero op (c == 0) (.move a b)
  | 3 => ifZero op (c == 0) (.moveImmediate a b)
  | 4 => ifZero op (c == 0) (.add a b)
  | 5 => ifZero op (c == 0) (.addImmediate a b)
  | 6 => ifZero op (b == 0 && c == 0) (.increment a)
  | 7 => ifZero op (b == 0 && c == 0) (.decrement a)
  | _ => .error (.reservedOpcode op)

/-! ## Encoding (R72, R73) -/

/-- R72's opcode of an instruction. -/
def Instr.opcode : Instr → BitVec 8
  | .ret => 0x00#8
  | .call _ _ _ => 0x01#8
  | .move _ _ => 0x02#8
  | .moveImmediate _ _ => 0x03#8
  | .add _ _ => 0x04#8
  | .addImmediate _ _ => 0x05#8
  | .increment _ => 0x06#8
  | .decrement _ => 0x07#8

/-- R73's column `A`; zero where the field must be zero. -/
def Instr.operandA : Instr → Word
  | .ret => 0
  | .call targetPc _ _ => targetPc
  | .move d _ => d
  | .moveImmediate d _ => d
  | .add d _ => d
  | .addImmediate d _ => d
  | .increment r => r
  | .decrement r => r

/-- R73's column `B`; zero where the field must be zero. -/
def Instr.operandB : Instr → Word
  | .ret => 0
  | .call _ frameSize _ => frameSize
  | .move _ s => s
  | .moveImmediate _ v => v
  | .add _ s => s
  | .addImmediate _ v => v
  | .increment _ => 0
  | .decrement _ => 0

/-- R73's column `C`; zero where the field must be zero. -/
def Instr.operandC : Instr → Word
  | .ret => 0
  | .call _ _ destination => destination
  | .move _ _ => 0
  | .moveImmediate _ _ => 0
  | .add _ _ => 0
  | .addImmediate _ _ => 0
  | .increment _ => 0
  | .decrement _ => 0

/-- The one word of an instruction (R70 to R73). -/
def encode (i : Instr) : IWord := IWord.pack i.opcode i.operandA i.operandB i.operandC

/-! ## The byte image (R86) -/

/-- The 25 bytes of a word: "byte `j` holding bits `[8j+7:8j]` (little-endian)". -/
def wordBytes (w : IWord) : List Byte := (List.range 25).map fun j => w.extractLsb' (8 * j) 8

/-- The word whose bytes, least significant first, are these. -/
def wordOfBytes (bs : List Byte) : IWord := BitVec.ofNat 200 (bs.foldr (fun b n => b.toNat + 256 * n) 0)

/-- A program's image: "words at increasing program addresses in increasing byte order". -/
def imageOfProgram (p : List IWord) : List Byte := p.flatMap wordBytes

/-- Read an image; `fuel` bounds the words read. `none` where the bytes are no whole number of words. -/
def readImage : (fuel : Nat) → List Byte → Option (List IWord)
  | _, [] => some []
  | 0, _ :: _ => none
  | fuel + 1, b :: bs =>
    if (b :: bs).length < 25 then none
    else (readImage fuel ((b :: bs).drop 25)).map (wordOfBytes ((b :: bs).take 25) :: ·)

/-- The program of an image (an image has no more words than bytes). -/
def programOfImage (bs : List Byte) : Option (List IWord) := readImage bs.length bs

/-- The instruction at the front of an image and the bytes after it; total on any bytes. -/
def decodeBytes (bs : List Byte) : Except DecodeError (Instr × List Byte) :=
  if bs.length < 25 then .error .truncatedImage
  else (decodeWord (wordOfBytes (bs.take 25))).map (·, bs.drop 25)

/-! ## The host's question -/

/-- The word of `nbits` bits that the opcode table numbers `w`: bits above `nbits` are zero. -/
def tableWord (nbits w : Nat) : IWord := BitVec.ofNat 200 (w % 2 ^ nbits)

/-- The instruction the decoder reads from a table word, laid out as R86 lays it out. -/
def decodeTableWord (nbits w : Nat) : Option Instr :=
  match decodeBytes (wordBytes (tableWord nbits w)) with
  | .ok (i, _) => some i
  | .error _ => none

end Sys2Proof
end

