-- ==== Sys2Proof/Config.lean ====
section
/-! DEFINITION. What one implementation fixes (00_scope.md R6) and the free value of a register that nothing has
written. -/

namespace Sys2Proof

/-- The OPEN parameters of R6 (D10, D11, D12). A machine state carries them, no step changes them (R35), and a
statement about every state is a statement about every value of them. -/
structure Params where
  /-- GROW_INC, the increment by which the capacity grows (R58). -/
  growInc   : Nat
  /-- MAX_REGS, the largest capacity the backing store reaches (R58). -/
  maxRegs   : Nat
  /-- MAX_FRAMES, the number of frame slots, the root's included (R25). -/
  maxFrames : Nat
deriving DecidableEq, Repr

/-- R6's constraints: a configuration that breaks one is not a configuration of this hardware. -/
abbrev Params.Ok (p : Params) : Prop := 1 ≤ p.growInc ∧ p.maxRegs < 2 ^ 64 ∧ 1 ≤ p.maxFrames

/-- DESIGN CHOICE (log 3): the parameters of `State.reset` are the spec's test configuration (R7). -/
def Config.testParams : Params := { growInc := 256, maxRegs := 65536, maxFrames := 64 }

/-- DESIGN CHOICE (log 3): the INIT_CAP of `State.reset`, "a default of 256 words is a reasonable starting size"
(R210, R7). -/
def Config.testInitCap : Nat := 256

/-- FREE VALUE (log 1, log 2): what register `index` holds when nothing has written it since `init` number `epoch`
or since growth created it. "In the hardware such a register holds an unspecified W-bit value" (R22). -/
opaque Config.unspecifiedReg (epoch index : Nat) : Word

end Sys2Proof
end

