-- ==== Sys2Proof/Machine/State.lean ====
section
/-! DEFINITION. The architectural state (10_state.md), the reasons a step can stop, and the state after reset. -/

namespace Sys2Proof.Machine

/-- The register file with its record `written` (R21, R22): the (absolute index, word) pairs of the registers that
have been written, indices strictly rising. A register is written exactly when it is listed. -/
abbrev RegFile := List (Nat × Word)

/-- A frame, "one in-progress call" (R24). All fields are fixed when the frame is created. -/
structure Frame where
  /-- The slot of the calling frame, NONE for the root. -/
  link     : Option Nat
  /-- Where the caller resumes. -/
  resumePc : Word
  /-- The absolute index of relative index 0. -/
  base     : Nat
  /-- The window's length in registers. -/
  len      : Nat
  /-- The absolute index, in the caller's window, that the return value goes to. -/
  dest     : Nat
deriving DecidableEq, Repr

/-- R32's `status`. -/
inductive Status where
  | idle | run | done | failed | fault
deriving DecidableEq, Repr

/-- R32's `err`. -/
inductive Err where
  | none | resourceExhausted
deriving DecidableEq, Repr

/-- R181's fault codes. `none` is what `fault_code` holds when there is no fault; it is never raised. -/
inductive FaultCode where
  /-- 0x00. -/
  | none
  /-- 0x01: `pc >= N` at fetch (R79). -/
  | fetchRange
  /-- 0x02: a reserved opcode or a nonzero must-be-zero field (R76, R77). -/
  | illegalInstruction
  /-- 0x03: an absolute index at or above `cap` (R52). -/
  | absRange
  /-- 0x04: a frame-relative index at or above `cur.len` (R53). -/
  | relRange
  /-- 0x05: a call with `frame_size = 0` (R151). -/
  | zeroFrame
  /-- 0x06: a call whose destination is at or above `cur.len` (R55). -/
  | destRange
deriving DecidableEq, Repr

/-- The machine's own stops that are no outcome of the spec. The spec's faults (R182) are no stop: they are a next
state with status FAULT. -/
inductive Fault where
  /-- An instruction needs the current frame and no frame is live: "`cur` ... defined only when `sp >= 1`" (R10).
  Raised by `call`, `return` and the four ALU instructions. Safe: R27 (1) says `sp >= 1` whenever status is RUN, so
  no run reaches it (log 7). -/
  | noCurrentFrame
deriving DecidableEq, Repr

/-- What the machine has no meaning for. No instruction refuses. -/
inductive Refusal where
  /-- Raised by an arm of `exec` whose instruction has no meaning yet. Safe. -/
  | notModelled (mnemonic : String)
  /-- Raised by `start` when status is RUN, FAILED or FAULT: "In a model a refused start is a host that breaks its
  duty: the model has no move for it" (R211). Safe. -/
  | startNotAccepted
  /-- Raised by `init` with `INIT_CAP > MAX_REGS`, "not a configuration of this hardware" (U6, R6, D33). Safe. -/
  | initCapAboveMaxRegs
  /-- Raised by `init` with `2^64` or more instruction words, against `N < 2^W` (R6, D29). Safe. -/
  | programTooLong
  /-- Raised by `init` when the parameters break R6's constraints. Safe. -/
  | notAConfiguration
deriving DecidableEq, Repr

/-- Everything the spec gives the machine (R20), the parameters of the step relation (R35), and the model's own
`initCount`. -/
structure State where
  /-- GROW_INC, MAX_REGS, MAX_FRAMES (R6): never changed. -/
  params    : Params
  /-- `IMem[0 .. N-1]` (R64); `N` is its length. Changed by `init` alone. -/
  imem      : List IWord
  /-- `x` and `written` (R21, R22). -/
  regs      : RegFile
  /-- `cap` (R30). -/
  cap       : Nat
  /-- `pc` (R28). -/
  pc        : Word
  /-- `FS[0 .. sp-1]`, `FS[sp-1]` first (R25: "a model may represent the frame stack as a list of frames with the
  head as `cur`"). -/
  frames    : List Frame
  /-- `in_use` (R29). -/
  inUse     : Nat
  /-- `status` (R32). -/
  status    : Status
  /-- `result` (R32). -/
  result    : Word
  /-- `err` (R32). -/
  err       : Err
  /-- `fault_code` (R32, R181). -/
  faultCode : FaultCode
  /-- `fault_pc` (R32). -/
  faultPc   : Word
  /-- The model's own: the number of the current `init`, the argument of the free value (log 2). -/
  initCount : Nat
deriving DecidableEq, Repr

/-- R33, R210: every piece of state after `init(program, initCap)`. -/
def State.afterInit (params : Params) (initCount : Nat) (program : List IWord) (initCap : Nat) : State :=
  { params, imem := program, regs := [], cap := initCap, pc := 0, frames := [], inUse := 0, status := .idle,
    result := 0, err := .none, faultCode := .none, faultPc := 0, initCount }

/-- Right after reset: `init` of no program (log 4) with the spec's test configuration (log 3). -/
def State.reset : State := State.afterInit Config.testParams 0 [] Config.testInitCap

/-- `sp`, the number of live frames (R25). -/
def State.sp (s : State) : Nat := s.frames.length

end Sys2Proof.Machine
end

