-- ==== Sys2Proof/Machine/Ops.lean ====
section
/-! DEFINITION. The named operations over the register file, the frame stack and the control state, and the two
abnormal outcomes (60_exceptions.md): a fault and resource exhaustion. There is no return from either (R191). -/

namespace Sys2Proof.Machine

/-- One step's outcome. -/
abbrev Out := Host.Outcome State Fault Refusal

/-! ## The register file (R21, R22, R62) -/

/-- The word of a written register, `none` for one that nothing has written. -/
def RegFile.lookup : RegFile → Nat → Option Word
  | [], _ => none
  | (j, v) :: rest, i => if i = j then some v else RegFile.lookup rest i

/-- `x[i] <- v`, which also makes `written(i)` true (R22). -/
def RegFile.store : RegFile → Nat → Word → RegFile
  | [], i, v => [(i, v)]
  | (j, w) :: rest, i, v =>
    if i < j then (i, v) :: (j, w) :: rest
    else if i = j then (i, v) :: rest
    else (j, w) :: RegFile.store rest i v

/-- `written(i) <- false` for every `i >= lo` (R58's new registers). -/
def RegFile.unwriteFrom (r : RegFile) (lo : Nat) : RegFile := r.filter fun e => decide (e.1 < lo)

/-- The register file's canonical form: indices strictly rising, so that equal contents and equal records are equal
lists. -/
def Memory.wf : RegFile → Bool
  | [] => true
  | [_] => true
  | (i, _) :: (j, v) :: rest => decide (i < j) && Memory.wf ((j, v) :: rest)

/-- `written(i)` (R22). -/
def State.written (s : State) (i : Nat) : Bool := (s.regs.lookup i).isSome

/-- `x[i]`; a register that nothing has written holds the unspecified word (R22; log 1). -/
def State.readReg (s : State) (i : Nat) : Word :=
  (s.regs.lookup i).getD (Config.unspecifiedReg s.initCount i)

/-- `x[i] <- v`. -/
def State.writeReg (s : State) (i : Nat) (v : Word) : State := { s with regs := s.regs.store i v }

/-! ## The program counter and the fetch (R28, R79) -/

/-- `pc <- pc + 1` (R82). -/
def State.advance (s : State) : State := { s with pc := s.pc + 1 }

/-- `IMem[pc]`, `none` when `pc >= N` (R79). -/
def State.fetch (s : State) : Option IWord := s.imem[s.pc.toNat]?

/-! ## The two abnormal outcomes -/

/-- R182: status FAULT, the code and the address of the faulting instruction; nothing else changes. -/
def State.faulted (s : State) (c : FaultCode) : State :=
  { s with status := .fault, faultCode := c, faultPc := s.pc }

/-- `raise Fault(code)`: the one operation by which every fault of the spec is taken (R182). -/
def raiseFault (c : FaultCode) (s : State) : Out := .next (s.faulted c)

/-- R186: every live frame destroyed, status FAILED, err RESOURCE_EXHAUSTED; `result` and every register kept. -/
def State.exhausted (s : State) : State :=
  { s with frames := [], status := .failed, err := .resourceExhausted }

/-- `raise ResourceExhausted`, from a step or from a start (R185, R186). -/
def raiseExhausted (s : State) : Out := .next s.exhausted

/-! ## Growth (R58) -/

/-- R58's `newcap`: `cap` when it reaches the need, else `cap + k * GROW_INC` for the least `k` that reaches it. -/
def State.capFor (s : State) (need : Nat) : Nat :=
  if need ≤ s.cap then s.cap
  else s.cap + (need - s.cap + s.params.growInc - 1) / s.params.growInc * s.params.growInc

/-- The file at its new capacity, the new registers unwritten (R58, R59). -/
def State.growTo (s : State) (newcap : Nat) : State :=
  { s with regs := s.regs.unwriteFrom s.cap, cap := newcap }

/-- R58's `Grow(need)`; `none` is `raise ResourceExhausted`. -/
def State.grow (s : State) (need : Nat) : Option State :=
  if need ≤ s.cap then some s
  else if s.capFor need ≤ s.params.maxRegs then some (s.growTo (s.capFor need))
  else none

/-! ## The frame stack (R25, R151, R155) -/

/-- Create a frame over `[in_use, in_use + f.len)` and go to the callee (R151). -/
def State.enterFrame (s : State) (f : Frame) (targetPc : Word) : State :=
  { s with frames := f :: s.frames, inUse := s.inUse + f.len, pc := targetPc }

/-- Destroy the current frame `f` and go back to its caller (R155, but for the register write). -/
def State.leaveFrame (s : State) (f : Frame) : State :=
  { s with frames := s.frames.tail, inUse := s.inUse - f.len, pc := f.resumePc }

/-- Root return (R156): the result, no live frame, DONE; `pc`, `in_use`, `cap` and the registers kept. -/
def State.finished (s : State) (v : Word) : State :=
  { s with result := v, frames := [], status := .done }

/-! ## Where the next instruction is fetched from -/

/-- `imem` with `w` at program address `p`; addresses between its end and `p` are filled with `w` as well. -/
def placeWord (imem : List IWord) (p : Nat) (w : IWord) : List IWord :=
  if p < imem.length then imem.set p w else imem ++ List.replicate (p - imem.length) w ++ [w]

end Sys2Proof.Machine
end

