-- ==== Sys2Proof/Machine/Operands.lean ====
section
/-! DEFINITION. The addressing multiplexer (20_memory.md R52, R53, R55): a path turns an operand into an absolute
index or the fault it raises. Which operand takes which path is fixed by the opcode (R54, R75). -/

namespace Sys2Proof.Machine

/-- R52, the absolute path. -/
def absAddr (s : State) (i : Word) : Except FaultCode Nat :=
  if i.toNat < s.cap then .ok i.toNat else .error .absRange

/-- R53, the frame-relative path in the current frame's window. "The comparison is made on `r` before the addition". -/
def relAddr (cur : Frame) (r : Word) : Except FaultCode Nat :=
  if r.toNat < cur.len then .ok (cur.base + r.toNat) else .error .relRange

/-- R55, the caller-window path: a call's destination, resolved against the caller's window (C2, D9). -/
def destAddr (cur : Frame) (t : Word) : Except FaultCode Nat :=
  if t.toNat < cur.len then .ok (cur.base + t.toNat) else .error .destRange

/-- Go on with the absolute index, or take the fault. Operand checks are made in operand order (R190). -/
def withAddr (s : State) (a : Except FaultCode Nat) (k : Nat → Out) : Out :=
  match a with
  | .ok i => k i
  | .error c => raiseFault c s

/-- Go on with the current frame `cur = FS[sp-1]` (R25), which exists whenever status is RUN (R27 (1); log 7). -/
def withCur (s : State) (k : Frame → Out) : Out :=
  match s.frames with
  | [] => .fault .noCurrentFrame
  | cur :: _ => k cur

end Sys2Proof.Machine
end

