-- ==== Sys2Proof/Machine/Flags.lean ====
section
/-! DEFINITION. The adder. The core has no flags: "no instruction sets or reads a flag, `Add` has \"no overflow
check\"" (10_state.md R31), so the adder's result is all it computes (41_alu.md R120, R125). -/

namespace Sys2Proof.Machine

/-- R9's `a +_W b`, `(a + b) mod 2^W`. -/
def addW (a b : Word) : Word := BitVec.ofNat 64 ((a.toNat + b.toNat) % 2 ^ 64)

/-- R9's `a -_W b`, `(a - b) mod 2^W`; `2^W` is added first so that the difference is a natural number. -/
def subW (a b : Word) : Word := BitVec.ofNat 64 ((2 ^ 64 + a.toNat - b.toNat) % 2 ^ 64)

/-- The three ALU forms with one register operand (R120): `x[RelAddr(r)]` becomes `f` of itself. -/
def aluInPlace (r : Word) (f : Word → Word) (s : State) : Out :=
  withCur s fun cur => withAddr s (relAddr cur r) fun ir =>
    .next (s.writeReg ir (f (s.readReg ir))).advance

end Sys2Proof.Machine
end

