-- ==== Sys2Proof/Machine/Alu.lean ====
section
/-! DEFINITION. ALU operations on the frame-relative path (41_alu.md). -/

namespace Sys2Proof.Machine

/-- R121, `add d, s`. -/
def execAdd (d src : Word) (s : State) : Out :=
  withCur s fun cur => withAddr s (relAddr cur d) fun id => withAddr s (relAddr cur src) fun is =>
    .next (s.writeReg id (addW (s.readReg id) (s.readReg is))).advance

/-- R122, `add_immediate d, v`. -/
def execAddImmediate (d v : Word) (s : State) : Out := aluInPlace d (fun a => addW a v) s

/-- R123, `increment r`. -/
def execIncrement (r : Word) (s : State) : Out := aluInPlace r (fun a => addW a 1#64) s

/-- R124, `decrement r`. -/
def execDecrement (r : Word) (s : State) : Out := aluInPlace r (fun a => subW a 1#64) s

end Sys2Proof.Machine
end

