-- ==== Sys2Proof/Machine/FrameControl.lean ====
section
/-! DEFINITION. The frame-stack controller (42_frame_control.md). -/

namespace Sys2Proof.Machine

/-- R151, `call target_pc, frame_size, destination`: the checks, the growth, the frame-slot check and the new frame,
in the order of its pseudocode and of R190. A growth that the frame-slot check follows stays (R186; log 5). -/
def execCall (targetPc frameSize destination : Word) (s : State) : Out :=
  if frameSize.toNat = 0 then raiseFault .zeroFrame s
  else withCur s fun cur => withAddr s (destAddr cur destination) fun dabs =>
    match s.grow (s.inUse + frameSize.toNat) with
    | none => raiseExhausted s
    | some g =>
      if g.sp = g.params.maxFrames then raiseExhausted g
      else .next (g.enterFrame
        { link := some (s.sp - 1), resumePc := s.pc + 1, base := s.inUse, len := frameSize.toNat, dest := dabs }
        targetPc)

/-- R155, `return`; from the root frame R156. -/
def execReturn (s : State) : Out :=
  withCur s fun cur => withAddr s (relAddr cur 0#64) fun i0 =>
    match cur.link with
    | none => .next (s.finished (s.readReg i0))
    | some _ => .next ((s.writeReg cur.dest (s.readReg i0)).leaveFrame cur)

end Sys2Proof.Machine
end

