-- ==== Sys2Proof/Machine/Move.lean ====
section
/-! DEFINITION. Data movement on the absolute path (40_move.md). -/

namespace Sys2Proof.Machine

/-- R101, `move d, s`. -/
def execMove (d src : Word) (s : State) : Out :=
  withAddr s (absAddr s d) fun id => withAddr s (absAddr s src) fun is =>
    .next (s.writeReg id (s.readReg is)).advance

/-- R102, `move_immediate d, v`. -/
def execMoveImmediate (d v : Word) (s : State) : Out :=
  withAddr s (absAddr s d) fun id => .next (s.writeReg id v).advance

end Sys2Proof.Machine
end

