-- ==== Sys2Proof/Machine/Dispatch.lean ====
section
/-! DEFINITION. R81's dispatch: one arm per instruction. -/

namespace Sys2Proof.Machine

def exec (i : Instr) (s : State) : Host.Outcome State Fault Refusal :=
  match i with
  -- the frame-stack controller (42_frame_control.md)
  | .ret => Sys2Proof.Machine.execReturn s
  | .call targetPc frameSize destination => Sys2Proof.Machine.execCall targetPc frameSize destination s
  -- the absolute path (40_move.md)
  | .move d src => Sys2Proof.Machine.execMove d src s
  | .moveImmediate d v => Sys2Proof.Machine.execMoveImmediate d v s
  -- the frame-relative path (41_alu.md)
  | .add d src => Sys2Proof.Machine.execAdd d src s
  | .addImmediate d v => Sys2Proof.Machine.execAddImmediate d v s
  | .increment r => Sys2Proof.Machine.execIncrement r s
  | .decrement r => Sys2Proof.Machine.execDecrement r s

end Sys2Proof.Machine
end

