-- ==== Sys2Proof/Machine/Launch.lean ====
section
/-! DEFINITION. The host's `init` and `start` (70_reset_and_hazards.md R210 to R214). -/

namespace Sys2Proof.Machine

/-- R210, `init(program, INIT_CAP)`: accepted in any status; a host that breaks R6's bounds is refused (log 6). The
parameters are the core's own and stay (log 3). -/
def init (program : List IWord) (initCap : Nat) (s : State) : Out :=
  if ¬ s.params.Ok then .refused .notAConfiguration
  else if ¬ program.length < 2 ^ 64 then .refused .programTooLong
  else if ¬ initCap ≤ s.params.maxRegs then .refused .initCapAboveMaxRegs
  else .next (State.afterInit s.params (s.initCount + 1) program initCap)

/-- R212's first act: `err` and `fault_code` cleared. -/
def State.cleared (s : State) : State := { s with err := .none, faultCode := .none }

/-- R213's root frame. -/
def rootFrame (rootWindowSize : Nat) : Frame :=
  { link := none, resumePc := 0, base := 0, len := rootWindowSize, dest := 0 }

/-- R213 and R214: the root frame, `pc`, `in_use` and RUN. -/
def State.launched (s : State) (entryPc : Word) (rootWindowSize : Nat) : State :=
  { s with frames := [rootFrame rootWindowSize], pc := entryPc, inUse := rootWindowSize, status := .run }

/-- R212 to R214: an accepted start. -/
def launch (entryPc rootWindowSize : Word) (s : State) : State :=
  match s.cleared.grow rootWindowSize.toNat with
  | none => s.cleared.exhausted
  | some g => g.launched entryPc rootWindowSize.toNat

/-- R211, `start(entry_pc, root_window_size)`: accepted in IDLE and DONE, else refused. -/
def start (entryPc rootWindowSize : Word) (s : State) : Out :=
  match s.status with
  | .idle => .next (launch entryPc rootWindowSize s)
  | .done => .next (launch entryPc rootWindowSize s)
  | .run => .refused .startNotAccepted
  | .failed => .refused .startNotAccepted
  | .fault => .refused .startNotAccepted

/-- Bring a machine that is not running to RUN at its own `pc` with a root window of one register (R217: "at least 1
if the root executes `return`"); a running one stays as it is (log 4). -/
def readyToFetch (s : State) : State :=
  match s.status with
  | .run => s
  | .idle => launch s.pc 1 s
  | .done => launch s.pc 1 s
  | .failed => launch s.pc 1 s
  | .fault => launch s.pc 1 s

end Sys2Proof.Machine
end

