-- ==== Sys2Proof/Machine/Step.lean ====
section
/-! DEFINITION. One step (30_encoding.md R84), and the state whose next step runs a given word. -/

namespace Sys2Proof.Machine

/-- R84: with status RUN, fetch (R79), decode (R80), execute (R81). "No step happens when `status` is not `RUN`"; the
host's `step` then does nothing (R209). -/
def step (s : State) : Host.Outcome State Fault Refusal :=
  match s.status with
  | .run =>
    match s.fetch with
    | none => raiseFault .fetchRange s
    | some w =>
      match decodeWord w with
      | .error _ => raiseFault .illegalInstruction s
      | .ok i => exec i s
  | .idle => .next s
  | .done => .next s
  | .failed => .next s
  | .fault => .next s

/-- `s` with the table word at the address `step` fetches from, and running (log 4). -/
def State.withFetchWord (s : State) (nbits w : Nat) : State :=
  readyToFetch { s with imem := placeWord s.imem s.pc.toNat (tableWord nbits w) }

end Sys2Proof.Machine
end

