-- ==== Sys2Proof/Assembler.lean ====
section
/-! DEFINITION. The spec's assembly syntax (30_encoding.md R85): one instruction per line, the mnemonic and its operands
separated by commas, each a decimal or 0x hexadecimal number below 2^W; text from `;` to the end of a line is a comment;
the source's notation, the variant's name and its operands in braces, denotes the same instruction. The machine never
reads text ("syntax has no semantics", D28); there are no pseudo-instructions (R86). -/

namespace Sys2Proof.Asm

/-- The digit a character is in base `base`, at most 16. -/
def digit (base : Nat) (c : Char) : Option Nat :=
  let n := c.toNat
  let d := if 48 ≤ n ∧ n ≤ 57 then n - 48 else if 97 ≤ n ∧ n ≤ 102 then n - 87
    else if 65 ≤ n ∧ n ≤ 70 then n - 55 else 16
  if d < base then some d else none

/-- The number that the digits continue from `acc`. -/
def digits (base : Nat) : Nat → List Char → Option Nat
  | acc, [] => some acc
  | acc, c :: cs => match digit base c with
    | some d => digits base (acc * base + d) cs
    | none => none

/-- "an unsigned integer in decimal or `0x` hexadecimal, in `[0, 2^W)`". -/
def number (cs : List Char) : Option Word :=
  let n := match cs with
    | [] => none
    | '0' :: 'x' :: [] => none
    | '0' :: 'x' :: hex => digits 16 0 hex
    | decimal => digits 10 0 decimal
  match n with
  | some n => if n < 2 ^ 64 then some (BitVec.ofNat 64 n) else none
  | none => none

/-- A space or a tab. -/
def blank (c : Char) : Bool := c == ' ' || c == '\t'

/-- Blanks dropped at both ends. -/
def trim (cs : List Char) : List Char := ((cs.dropWhile blank).reverse.dropWhile blank).reverse

/-- The parts between commas; no part of an empty text. -/
def commaParts : List Char → List (List Char)
  | [] => [[]]
  | c :: cs =>
    if c == ',' then [] :: commaParts cs
    else match commaParts cs with
      | [] => [[c]]
      | p :: ps => (c :: p) :: ps

/-- All of the numbers, or none. -/
def numbers : List (List Char) → Option (List Word)
  | [] => some []
  | p :: ps => match number (trim p), numbers ps with
    | some n, some ns => some (n :: ns)
    | some _, none => none
    | none, _ => none

/-- The operands of a line: none in an empty text. -/
def operands (cs : List Char) : Option (List Word) :=
  match trim cs with
  | [] => some []
  | c :: cs => numbers (commaParts (c :: cs))

/-- R72's mnemonic, or the source's variant name, with operands in the order of R73. -/
def build (name : String) (ops : List Word) : Option Instr :=
  match ops with
  | [] => if name == "return" || name == "Return" then some .ret else none
  | [a] =>
    if name == "increment" || name == "Increment" then some (.increment a)
    else if name == "decrement" || name == "Decrement" then some (.decrement a)
    else none
  | [a, b] =>
    if name == "move" || name == "Move" then some (.move a b)
    else if name == "move_immediate" || name == "MoveImmediate" then some (.moveImmediate a b)
    else if name == "add" || name == "Add" then some (.add a b)
    else if name == "add_immediate" || name == "AddImmediate" then some (.addImmediate a b)
    else none
  | [a, b, c] => if name == "call" || name == "Call" then some (.call a b c) else none
  | _ :: _ :: _ :: _ :: _ => none

/-- Inside a pair of braces (their character codes are 123 and 125), what stands between them; else the text. -/
def unbrace (cs : List Char) : Option (List Char) :=
  match cs with
  | [] => some []
  | c :: rest =>
    if c.toNat == 123 then
      match rest.reverse with
      | [] => none
      | d :: inner => if d.toNat == 125 then some inner.reverse else none
    else some (c :: rest)

/-- One line: `none` is an error, `some none` a line without an instruction. -/
def line (cs : List Char) : Option (Option Instr) :=
  let text := trim (cs.takeWhile fun c => c != ';')
  let name := text.takeWhile fun c => !blank c && c.toNat != 123
  match text with
  | [] => some none
  | _ :: _ => match unbrace (trim (text.drop name.length)) with
    | none => none
    | some rest => match operands rest with
      | none => none
      | some ops => match build (String.ofList name) ops with
        | none => none
        | some i => some (some i)

/-- A program's lines, in order of program address. -/
def lines : List String → Option (List Instr)
  | [] => some []
  | l :: ls => match line l.toList, lines ls with
    | some (some i), some is => some (i :: is)
    | some none, some is => some is
    | some _, none => none
    | none, _ => none

/-- The program of an assembly text, as `init` takes it. -/
def assemble (ls : List String) : Option (List IWord) := (lines ls).map fun is => is.map encode

/-- The line of an instruction, its operands in decimal. -/
def print : Instr → String
  | .ret => "return"
  | .call p n d => "call " ++ p.toNat.repr ++ ", " ++ n.toNat.repr ++ ", " ++ d.toNat.repr
  | .move d s => "move " ++ d.toNat.repr ++ ", " ++ s.toNat.repr
  | .moveImmediate d v => "move_immediate " ++ d.toNat.repr ++ ", " ++ v.toNat.repr
  | .add d s => "add " ++ d.toNat.repr ++ ", " ++ s.toNat.repr
  | .addImmediate d v => "add_immediate " ++ d.toNat.repr ++ ", " ++ v.toNat.repr
  | .increment r => "increment " ++ r.toNat.repr
  | .decrement r => "decrement " ++ r.toNat.repr

end Sys2Proof.Asm
end

