-- ==== Sys2Proof/Machine/HostPort.lean ====
section
/-! DEFINITION. The host interface at transaction level (70_reset_and_hazards.md R209) and the codes the host reads
(10_state.md R32, 60_exceptions.md R181). -/

namespace Sys2Proof.Machine

/-- R32's encoding of `status`. -/
def Status.code : Status → BitVec 3
  | .idle => 0
  | .run => 1
  | .done => 2
  | .failed => 3
  | .fault => 4

/-- R32's encoding of `err`. -/
def Err.code : Err → BitVec 1
  | .none => 0
  | .resourceExhausted => 1

/-- R181's codes. -/
def FaultCode.code : FaultCode → BitVec 8
  | .none => 0x00
  | .fetchRange => 0x01
  | .illegalInstruction => 0x02
  | .absRange => 0x03
  | .relRange => 0x04
  | .zeroFrame => 0x05
  | .destRange => 0x06

/-- What "read status" returns (R209). -/
structure HostView where
  status    : BitVec 3
  result    : Word
  err       : BitVec 1
  faultCode : BitVec 8
  faultPc   : Word
deriving DecidableEq, Repr

/-- "read status": the core does nothing and returns the five fields (R209). -/
def readStatus (s : State) : HostView :=
  { status := s.status.code, result := s.result, err := s.err.code, faultCode := s.faultCode.code,
    faultPc := s.faultPc }

/-- The interactions by which the host changes the core (R209). -/
inductive HostCommand where
  | init (program : List IWord) (initCap : Nat)
  | start (entryPc rootWindowSize : Word)
  | step
deriving DecidableEq, Repr

/-- R209's column "core does". -/
def transact : HostCommand → State → Out
  | .init program initCap, s => Sys2Proof.Machine.init program initCap s
  | .start entryPc rootWindowSize, s => Sys2Proof.Machine.start entryPc rootWindowSize s
  | .step, s => Sys2Proof.Machine.step s

end Sys2Proof.Machine
end

