-- ==== Sys2Proof/Machine/Uninit.lean ====
section
/-! DEFINITION. The model-only condition UNINIT_READ (10_state.md R22, 60_exceptions.md R184) as a test. The machine
does not stop on it: "The hardware has no such fault: it reads the unspecified value and continues" (R184; log 1). -/

namespace Sys2Proof.Machine

/-- Would `i` read a register of the current window, or at an absolute index, that nothing has written? Checked after
the range checks of the same instruction (R184); an operand out of range reads nothing. -/
def readsUnwritten (i : Instr) (s : State) : Bool :=
  let unwritten (a : Except FaultCode Nat) : Bool :=
    match a with
    | .ok j => !s.written j
    | .error _ => false
  let inRange (a : Except FaultCode Nat) : Bool :=
    match a with
    | .ok _ => true
    | .error _ => false
  let rel (r : Word) : Except FaultCode Nat :=
    match s.frames with
    | [] => .error .relRange
    | cur :: _ => relAddr cur r
  match i with
  | .ret => unwritten (rel 0#64)
  | .call _ _ _ => false
  | .move d src => inRange (absAddr s d) && unwritten (absAddr s src)
  | .moveImmediate _ _ => false
  | .add d src => inRange (rel d) && inRange (rel src) && (unwritten (rel d) || unwritten (rel src))
  | .addImmediate d _ => unwritten (rel d)
  | .increment r => unwritten (rel r)
  | .decrement r => unwritten (rel r)

/-- Does the next step meet R184's condition? -/
def stepReadsUnwritten (s : State) : Bool :=
  match s.status with
  | .run =>
    match s.fetch with
    | none => false
    | some w =>
      match decodeWord w with
      | .error _ => false
      | .ok i => readsUnwritten i s
  | .idle => false
  | .done => false
  | .failed => false
  | .fault => false

/-- The outcomes of one step as R11 lists them, the model's fifth among them. -/
inductive SpecOutcome where
  | next (s : State)
  | done (result : Word)
  | failed (err : Err)
  | fault (code : FaultCode)
  | uninitRead
deriving DecidableEq, Repr

/-- R11's outcome of a step of a running core (R215); `none` where no step happens, or where the machine has no
current frame (log 7). -/
def specStep (s : State) : Option SpecOutcome :=
  match s.status with
  | .run =>
    if stepReadsUnwritten s then some .uninitRead
    else match step s with
      | .next t =>
        match t.status with
        | .run => some (.next t)
        | .done => some (.done t.result)
        | .failed => some (.failed t.err)
        | .fault => some (.fault t.faultCode)
        | .idle => none
      | .fault _ => none
      | .refused _ => none
  | .idle => none
  | .done => none
  | .failed => none
  | .fault => none

end Sys2Proof.Machine
end

