-- ==== Sys2Proof/Safety.lean ====
section
/-! DEFINITION. What counts as a safe run, and the terms claims are stated in: the invariant of every reachable state,
runs of many steps, and the ways in which two states can agree. -/

namespace Sys2Proof.Machine

/-- R25, R26 and R27 (2), (3), (6) along the frame stack, current frame first; `n` is the program's length. A caller
resumes at an address the program has or just ends at (R28, R83). -/
def framesOk (n : Nat) : List Frame → Bool
  | [] => true
  | [root] => root == { link := none, resumePc := 0, base := 0, len := root.len, dest := 0 }
  | f :: p :: rest =>
    decide (f.link = some rest.length) && decide (f.base = p.base + p.len) && decide (1 ≤ f.len) &&
      decide (p.base ≤ f.dest) && decide (f.dest < f.base) && decide (f.resumePc.toNat ≤ n) &&
      framesOk n (p :: rest)

/-- The invariant of every state that `init`, accepted starts and steps reach. -/
structure State.Inv (s : State) : Prop where
  /-- R6. -/
  params_ok : s.params.Ok
  /-- R6, D29: `N < 2^W`. -/
  imem_lt   : s.imem.length < 2 ^ 64
  /-- R27 (5). -/
  cap_le    : s.cap ≤ s.params.maxRegs
  /-- The register file is in its canonical form. -/
  regs_wf   : Memory.wf s.regs = true
  /-- R22: only registers of the file are recorded as written. -/
  regs_lt   : ∀ e ∈ s.regs, e.1 < s.cap
  /-- R27 (5). -/
  inUse_le  : s.inUse ≤ s.cap
  /-- R25. -/
  sp_le     : s.sp ≤ s.params.maxFrames
  /-- R27 (2), (3), (6). -/
  frames_ok : framesOk s.imem.length s.frames = true
  /-- R27 (4). -/
  inUse_eq  : ∀ cur ∈ s.frames.head?, s.inUse = cur.base + cur.len
  /-- R27 (1): frames are live while running and, since a fault keeps them (R182), in FAULT. -/
  live      : s.frames ≠ [] ↔ s.status = .run ∨ s.status = .fault
  /-- R32: `err` is set by resource exhaustion only. -/
  err_iff   : s.err = .resourceExhausted ↔ s.status = .failed
  /-- R32: `fault_code` is set by a fault only. -/
  fault_iff : s.faultCode ≠ .none ↔ s.status = .fault

/-- `k` steps from `s`. -/
def runFor : Nat → State → Out
  | 0, s => .next s
  | k + 1, s =>
    match step s with
    | .next t => runFor k t
    | .fault r => .fault r
    | .refused r => .refused r

/-- The instruction that the next step of a running core decodes. -/
def State.fetched (s : State) : Option Instr :=
  match s.status with
  | .run =>
    match s.fetch with
    | none => none
    | some w =>
      match decodeWord w with
      | .ok i => some i
      | .error _ => none
  | .idle => none
  | .done => none
  | .failed => none
  | .fault => none

/-- Register `j` holds the same word and the same record in both states. -/
def RegKept (j : Nat) (s t : State) : Prop := t.readReg j = s.readReg j ∧ t.written j = s.written j

/-- Every register but `i` is kept. -/
def OthersKept (i : Nat) (s t : State) : Prop := ∀ j, j ≠ i → RegKept j s t

/-- Nothing but registers and `pc` differs: parameters, program, capacity, frames, in-use count, status, result, err,
fault code and fault pc are the same. -/
def OnlyRegsAndPc (s t : State) : Prop := t = { s with regs := t.regs, pc := t.pc }

/-- Nothing but register contents, the result and the argument of the free value differs. -/
def SameButValues (s t : State) : Prop :=
  t = { s with regs := t.regs, result := t.result, initCount := t.initCount }

/-- Both outcomes are next states that agree but for values, or both are the same stop. -/
def SameOutcomeButValues : Out → Out → Prop
  | .next s, .next t => SameButValues s t
  | .fault a, .fault b => a = b
  | .refused a, .refused b => a = b
  | .next _, .fault _ => False
  | .next _, .refused _ => False
  | .fault _, .next _ => False
  | .fault _, .refused _ => False
  | .refused _, .next _ => False
  | .refused _, .fault _ => False

/-- The destination operand of an ALU instruction (R120): `add`, `add_immediate`, `increment`, `decrement`. -/
def aluDest : Instr → Option Word
  | .add d _ => some d
  | .addImmediate d _ => some d
  | .increment r => some r
  | .decrement r => some r
  | .ret => none
  | .call _ _ _ => none
  | .move _ _ => none
  | .moveImmediate _ _ => none

/-- The destination operand of an absolute-path instruction (R100): `move`, `move_immediate`. -/
def moveDest : Instr → Option Word
  | .move d _ => some d
  | .moveImmediate d _ => some d
  | .ret => none
  | .call _ _ _ => none
  | .add _ _ => none
  | .addImmediate _ _ => none
  | .increment _ => none
  | .decrement _ => none

/-- R159's bound, `sum_{k=1}^{m} (n + 1)^k`, for a program of `n` instructions and `m` frame slots. -/
def runBound (n : Nat) : Nat → Nat
  | 0 => 0
  | m + 1 => runBound n m + (n + 1) ^ (m + 1)

end Sys2Proof.Machine
end

