-- ==== Sys2Proof/Certificates/Slice0/Obligations.lean ====
section
/-! DEFINITION. The statements about the pique core, from the numbered rules of spec/. A free value (log 1) is
constrained by none of them: each holds for every value of `initCount`. Each holds for every value of the parameters
that a state carries (log 3). -/

open Sys2Proof Sys2Proof.Machine

/-! ## Encoding (30_encoding.md) -/

/-- R72, R73: one word of each instruction, written out as `C_B_A_op` (95_test_vectors.md), decodes to it. -/
def Obligations.SpecWordsDecode : Prop :=
  decodeWord 0x00000000000000000000000000000000000000000000000000 = .ok .ret ∧
  decodeWord 0x00000000000000010000000000000003000000000000000701 = .ok (.call 7 3 1) ∧
  decodeWord 0x00000000000000000000000000000001000000000000000002 = .ok (.move 0 1) ∧
  decodeWord 0x0000000000000000000000000000002a000000000000000003 = .ok (.moveImmediate 0 42) ∧
  decodeWord 0x00000000000000000000000000000001000000000000000004 = .ok (.add 0 1) ∧
  decodeWord 0x00000000000000000000000000000002000000000000000005 = .ok (.addImmediate 0 2) ∧
  decodeWord 0x00000000000000000000000000000000000000000000000906 = .ok (.increment 9) ∧
  decodeWord 0x00000000000000000000000000000000000000000000000507 = .ok (.decrement 5)

/-- R70 to R75, R80: every instruction, at every value of every operand, is what its word decodes to. -/
def Obligations.DecodeEncode : Prop :=
  ∀ i : Instr, decodeWord (encode i) = .ok i

/-- R78, D2: a word that decodes is the image of the instruction it decodes to; every other word is illegal. -/
def Obligations.DecodedWordIsTheEncoding : Prop :=
  ∀ (w : IWord) (i : Instr), decodeWord w = .ok i → encode i = w

/-- R76: a fetched word with `op`, its bits [7:0], in 0x08 .. 0xFF ends the step in ILLEGAL_INSTRUCTION. -/
def Obligations.ReservedOpcodesFault : Prop :=
  ∀ (s : State) (w : IWord), s.status = .run → s.imem[s.pc.toNat]? = some w →
    8 ≤ (w.extractLsb' 0 8).toNat → step s = .next (s.faulted .illegalInstruction)

/-- R77: a fetched word with a legal `op` and a nonzero field that R73 marks MBZ ends the step in
ILLEGAL_INSTRUCTION. `A` is bits [71:8], `B` [135:72], `C` [199:136]. -/
def Obligations.NonzeroMustBeZeroFieldsFault : Prop :=
  ∀ (s : State) (w : IWord), s.status = .run → s.imem[s.pc.toNat]? = some w →
    ((w.extractLsb' 0 8 = 0 ∧ (w.extractLsb' 8 64 ≠ 0 ∨ w.extractLsb' 72 64 ≠ 0 ∨ w.extractLsb' 136 64 ≠ 0)) ∨
      (2 ≤ (w.extractLsb' 0 8).toNat ∧ (w.extractLsb' 0 8).toNat ≤ 5 ∧ w.extractLsb' 136 64 ≠ 0) ∨
      (6 ≤ (w.extractLsb' 0 8).toNat ∧ (w.extractLsb' 0 8).toNat ≤ 7 ∧
        (w.extractLsb' 72 64 ≠ 0 ∨ w.extractLsb' 136 64 ≠ 0))) →
    step s = .next (s.faulted .illegalInstruction)

/-- R86: 25 bytes a word, byte `j` holding bits [8j+7:8j], words in increasing order; the image gives the program
back. -/
def Obligations.ProgramImageRoundTrip : Prop :=
  ∀ p : List IWord, (imageOfProgram p).length = 25 * p.length ∧ programOfImage (imageOfProgram p) = some p ∧
    ∀ (k : Nat) (w : IWord) (j : Nat), p[k]? = some w → j < 25 →
      (imageOfProgram p)[25 * k + j]? = some (w.extractLsb' (8 * j) 8)

/-! ## A step (R79, R84) -/

/-- R84: when the word at `pc` decodes to `i`, the step of a running core is `i`'s execution, with nothing around it. -/
def Obligations.StepRunsTheFetchedInstruction : Prop :=
  ∀ (s : State) (w : IWord) (i : Instr), s.status = .run → s.imem[s.pc.toNat]? = some w → decodeWord w = .ok i →
    step s = exec i s

/-- R79: `pc >= N` ends the step in FETCH_RANGE "and nothing else happens"; otherwise the fetch reads `IMem[pc]`. -/
def Obligations.FetchReadsOrFaults : Prop :=
  ∀ s : State, s.status = .run →
    (s.imem.length ≤ s.pc.toNat →
      step s = .next { s with status := .fault, faultCode := .fetchRange, faultPc := s.pc }) ∧
    (∀ h : s.pc.toNat < s.imem.length, s.fetch = some (s.imem[s.pc.toNat]'h))

/-- R84, R209: "No step happens when `status` is not `RUN`", for one step and for any number. -/
def Obligations.NoStepUnlessRunning : Prop :=
  ∀ (s : State) (k : Nat), s.status ≠ .run → step s = .next s ∧ runFor k s = .next s

/-! ## The absolute path (40_move.md) -/

/-- R101: `move` completes whenever both indices are below `cap`, copies `x[s]` to `x[d]` and touches nothing else. -/
def Obligations.MoveCopies : Prop :=
  ∀ (s : State) (d src : Word), d.toNat < s.cap → src.toNat < s.cap →
    ∃ t, exec (.move d src) s = .next t ∧ t.readReg d.toNat = s.readReg src.toNat ∧ t.written d.toNat = true ∧
      OthersKept d.toNat s t ∧ t.pc = s.pc + 1 ∧ OnlyRegsAndPc s t

/-- R102: `move_immediate` completes whenever `d` is below `cap`, writes `v` to `x[d]` and touches nothing else. -/
def Obligations.MoveImmediateWrites : Prop :=
  ∀ (s : State) (d v : Word), d.toNat < s.cap →
    ∃ t, exec (.moveImmediate d v) s = .next t ∧ t.readReg d.toNat = v ∧ t.written d.toNat = true ∧
      OthersKept d.toNat s t ∧ t.pc = s.pc + 1 ∧ OnlyRegsAndPc s t

/-- R52: an absolute index below `cap` selects that register unchanged; one at or above it faults ABS_RANGE, for
each absolute operand of `move` and `move_immediate`. -/
def Obligations.AbsolutePathIsBoundedByCapacity : Prop :=
  ∀ s : State,
    (∀ i : Word, i.toNat < s.cap → absAddr s i = .ok i.toNat) ∧
    (∀ d src : Word, s.cap ≤ d.toNat ∨ s.cap ≤ src.toNat →
      exec (.move d src) s = .next (s.faulted .absRange)) ∧
    (∀ d v : Word, s.cap ≤ d.toNat → exec (.moveImmediate d v) s = .next (s.faulted .absRange))

/-- The frame of `move` and `move_immediate`, faulting or not: every register but the destination is kept (all of them
when the destination is out of range), and either the step is an ABS_RANGE fault or nothing but registers and `pc`
changes. -/
def Obligations.MoveFrame : Prop :=
  ∀ (i : Instr) (d : Word), moveDest i = some d → ∀ s t : State, exec i s = .next t →
    (∀ a, absAddr s d = .ok a → OthersKept a s t) ∧
    (∀ c, absAddr s d = .error c → ∀ j, RegKept j s t) ∧
    (t = s.faulted .absRange ∨ (t.pc = s.pc + 1 ∧ OnlyRegsAndPc s t))

/-- R100: `move` and `move_immediate` take the absolute path "whatever frame is current": the frame stack and the
in-use count neither influence nor suffer them. -/
def Obligations.MovesIgnoreTheFrameStack : Prop :=
  ∀ (i : Instr) (d : Word), moveDest i = some d → ∀ (s t : State) (fs : List Frame) (n : Nat),
    exec i s = .next t → t.frames = s.frames ∧ t.inUse = s.inUse ∧
      exec i { s with frames := fs, inUse := n } = .next { t with frames := fs, inUse := n }

/-! ## The frame-relative path (41_alu.md) -/

/-- R121: `add` completes on every pair of relative indices below `cur.len` (`d = s` among them, R61) and leaves the
sum modulo 2^64 in the destination. -/
def Obligations.AddSumsModuloWord : Prop :=
  ∀ (s : State) (cur : Frame) (rest : List Frame) (d src : Word), s.frames = cur :: rest →
    d.toNat < cur.len → src.toNat < cur.len →
    ∃ t, exec (.add d src) s = .next t ∧
      (t.readReg (cur.base + d.toNat)).toNat =
        ((s.readReg (cur.base + d.toNat)).toNat + (s.readReg (cur.base + src.toNat)).toNat) % 2 ^ 64 ∧
      t.written (cur.base + d.toNat) = true ∧ OthersKept (cur.base + d.toNat) s t ∧
      t.pc = s.pc + 1 ∧ OnlyRegsAndPc s t

/-- R122: `add_immediate` completes on every relative index below `cur.len` and adds `v` modulo 2^64. -/
def Obligations.AddImmediateSumsModuloWord : Prop :=
  ∀ (s : State) (cur : Frame) (rest : List Frame) (d v : Word), s.frames = cur :: rest → d.toNat < cur.len →
    ∃ t, exec (.addImmediate d v) s = .next t ∧
      (t.readReg (cur.base + d.toNat)).toNat = ((s.readReg (cur.base + d.toNat)).toNat + v.toNat) % 2 ^ 64 ∧
      t.written (cur.base + d.toNat) = true ∧ OthersKept (cur.base + d.toNat) s t ∧
      t.pc = s.pc + 1 ∧ OnlyRegsAndPc s t

/-- R123: `increment` completes on every relative index below `cur.len`; 2^64 - 1 becomes 0, any other word its
successor. -/
def Obligations.IncrementAddsOne : Prop :=
  ∀ (s : State) (cur : Frame) (rest : List Frame) (r : Word), s.frames = cur :: rest → r.toNat < cur.len →
    ∃ t, exec (.increment r) s = .next t ∧
      ((s.readReg (cur.base + r.toNat)).toNat = 2 ^ 64 - 1 → (t.readReg (cur.base + r.toNat)).toNat = 0) ∧
      ((s.readReg (cur.base + r.toNat)).toNat ≠ 2 ^ 64 - 1 →
        (t.readReg (cur.base + r.toNat)).toNat = (s.readReg (cur.base + r.toNat)).toNat + 1) ∧
      t.written (cur.base + r.toNat) = true ∧ OthersKept (cur.base + r.toNat) s t ∧
      t.pc = s.pc + 1 ∧ OnlyRegsAndPc s t

/-- R124: `decrement` completes on every relative index below `cur.len`; 0 becomes 2^64 - 1, any other word its
predecessor. -/
def Obligations.DecrementSubtractsOne : Prop :=
  ∀ (s : State) (cur : Frame) (rest : List Frame) (r : Word), s.frames = cur :: rest → r.toNat < cur.len →
    ∃ t, exec (.decrement r) s = .next t ∧
      ((s.readReg (cur.base + r.toNat)).toNat = 0 → (t.readReg (cur.base + r.toNat)).toNat = 2 ^ 64 - 1) ∧
      ((s.readReg (cur.base + r.toNat)).toNat ≠ 0 →
        (t.readReg (cur.base + r.toNat)).toNat + 1 = (s.readReg (cur.base + r.toNat)).toNat) ∧
      t.written (cur.base + r.toNat) = true ∧ OthersKept (cur.base + r.toNat) s t ∧
      t.pc = s.pc + 1 ∧ OnlyRegsAndPc s t

/-- R53: a relative index below `cur.len` selects `cur.base + r`, which lies below `in_use` and so below `cap`; one at
or above `cur.len` faults REL_RANGE, for each relative operand of the four ALU instructions and for `return`'s
index 0. -/
def Obligations.RelativePathIsBoundedByWindow : Prop :=
  ∀ (s : State) (cur : Frame) (rest : List Frame), s.frames = cur :: rest →
    (∀ r : Word, r.toNat < cur.len → relAddr cur r = .ok (cur.base + r.toNat) ∧
      (s.Inv → cur.base + r.toNat < s.inUse ∧ cur.base + r.toNat < s.cap)) ∧
    (∀ d src : Word, cur.len ≤ d.toNat ∨ cur.len ≤ src.toNat →
      exec (.add d src) s = .next (s.faulted .relRange)) ∧
    (∀ d v : Word, cur.len ≤ d.toNat → exec (.addImmediate d v) s = .next (s.faulted .relRange)) ∧
    (∀ r : Word, cur.len ≤ r.toNat → exec (.increment r) s = .next (s.faulted .relRange)) ∧
    (∀ r : Word, cur.len ≤ r.toNat → exec (.decrement r) s = .next (s.faulted .relRange)) ∧
    (cur.len = 0 → exec .ret s = .next (s.faulted .relRange))

/-- The frame of `add`, `add_immediate`, `increment` and `decrement`, faulting or not: every register but the
destination is kept (all of them when the destination is out of range), and either the step is a REL_RANGE fault or
nothing but registers and `pc` changes. -/
def Obligations.AluFrame : Prop :=
  ∀ (i : Instr) (d : Word), aluDest i = some d → ∀ (s t : State) (cur : Frame) (rest : List Frame),
    s.frames = cur :: rest → exec i s = .next t →
    (∀ a, relAddr cur d = .ok a → OthersKept a s t) ∧
    (∀ c, relAddr cur d = .error c → ∀ j, RegKept j s t) ∧
    (t = s.faulted .relRange ∨ (t.pc = s.pc + 1 ∧ OnlyRegsAndPc s t))

/-- R120: no ALU instruction "reads or writes ... any register outside the current window": change the registers
outside it at will, and the instruction does the same to the window and leaves the others as they are. -/
def Obligations.AluSeesOnlyItsWindow : Prop :=
  ∀ (i : Instr) (d : Word), aluDest i = some d →
    ∀ (s t : State) (cur : Frame) (rest : List Frame) (other : RegFile), s.frames = cur :: rest →
    (∀ j, cur.base ≤ j → j < cur.base + cur.len → RegKept j s { s with regs := other }) →
    exec i s = .next t →
    ∃ u, exec i { s with regs := other } = .next u ∧ u = { t with regs := u.regs } ∧
      (∀ j, cur.base ≤ j → j < cur.base + cur.len → RegKept j t u) ∧
      (∀ j, j < cur.base ∨ cur.base + cur.len ≤ j → RegKept j s t ∧ RegKept j { s with regs := other } u)

/-- R125: an increment and a decrement of one register undo each other in either order, and two immediate additions
are one addition of their sum modulo 2^64, "for every value including `0` and `2^W - 1`". -/
def Obligations.IncrementsAndDecrementsCompose : Prop :=
  ∀ (s : State) (cur : Frame) (rest : List Frame) (r : Word), s.frames = cur :: rest → r.toNat < cur.len →
    (∃ t u, exec (.increment r) s = .next t ∧ exec (.decrement r) t = .next u ∧
      ∀ j, u.readReg j = s.readReg j) ∧
    (∃ t u, exec (.decrement r) s = .next t ∧ exec (.increment r) t = .next u ∧
      ∀ j, u.readReg j = s.readReg j) ∧
    (∀ v1 v2 : Word, ∃ t u v, exec (.addImmediate r v1) s = .next t ∧ exec (.addImmediate r v2) t = .next u ∧
      exec (.addImmediate r (BitVec.ofNat 64 ((v1.toNat + v2.toNat) % 2 ^ 64))) s = .next v ∧
      ∀ j, RegKept j v u)

/-! ## Calls (42_frame_control.md) -/

/-- R151: `call` completes with a positive `frame_size`, a destination in the caller's window, a capacity that reaches
the need and a free frame slot: the new frame, `in_use`, `cap` and `pc` as R151 gives them, every register that
existed kept (the window is not cleared, D16), the registers that its growth creates unwritten (R58, R22), nothing else
changed. -/
def Obligations.CallCreatesFrame : Prop :=
  ∀ (s : State) (cur : Frame) (rest : List Frame) (p n d : Word), s.frames = cur :: rest →
    1 ≤ n.toNat → d.toNat < cur.len →
    (s.inUse + n.toNat ≤ s.cap ∨ s.capFor (s.inUse + n.toNat) ≤ s.params.maxRegs) → s.sp ≠ s.params.maxFrames →
    ∃ t, exec (.call p n d) s = .next t ∧
      t.frames = { link := some (s.sp - 1), resumePc := s.pc + 1, base := s.inUse, len := n.toNat,
                   dest := cur.base + d.toNat } :: s.frames ∧
      t.sp = s.sp + 1 ∧ t.inUse = s.inUse + n.toNat ∧ t.pc = p ∧ t.cap = s.capFor (s.inUse + n.toNat) ∧
      (∀ j, j < s.cap → RegKept j s t) ∧ (∀ i, s.cap ≤ i → i < t.cap → t.written i = false) ∧
      t = { s with regs := t.regs, cap := t.cap, frames := t.frames, inUse := t.inUse, pc := t.pc }

/-- R190 (3), (5), R151: `frame_size = 0` faults ZERO_FRAME whatever the destination and the resources; otherwise a
destination at or above `cur.len` faults DEST_RANGE whatever the resources. -/
def Obligations.CallOperandFaultsComeFirst : Prop :=
  ∀ (s : State) (cur : Frame) (rest : List Frame) (p n d : Word), s.frames = cur :: rest →
    (n.toNat = 0 → exec (.call p n d) s = .next (s.faulted .zeroFrame)) ∧
    (n.toNat ≠ 0 → cur.len ≤ d.toNat → exec (.call p n d) s = .next (s.faulted .destRange))

/-- R55: at a call the destination `t` is resolved against the caller's window: DEST_RANGE when `t >= cur.len`, else
`cur.base + t`, stored in the new frame. -/
def Obligations.DestinationResolvedAtTheCall : Prop :=
  ∀ (s : State) (cur : Frame) (rest : List Frame) (p n d : Word), s.frames = cur :: rest → n.toNat ≠ 0 →
    (cur.len ≤ d.toNat → exec (.call p n d) s = .next (s.faulted .destRange)) ∧
    (d.toNat < cur.len → destAddr cur d = .ok (cur.base + d.toNat) ∧
      ∀ t f, exec (.call p n d) s = .next t → t.frames = f :: s.frames → f.dest = cur.base + d.toNat)

/-- R185: a call with legal operands fails exactly when its growth needs a capacity above MAX_REGS or no frame slot is
free; an accepted start fails exactly when its root window needs a capacity above MAX_REGS. -/
def Obligations.ExhaustionCauses : Prop :=
  (∀ (s : State) (cur : Frame) (rest : List Frame) (p n d : Word), s.status = .run → s.frames = cur :: rest →
    n.toNat ≠ 0 → d.toNat < cur.len →
    ((∃ t, exec (.call p n d) s = .next t ∧ t.status = .failed ∧ t.err = .resourceExhausted) ↔
      (s.cap < s.inUse + n.toNat ∧ s.params.maxRegs < s.capFor (s.inUse + n.toNat)) ∨
        s.sp = s.params.maxFrames)) ∧
  (∀ (s : State) (e r : Word), s.status = .idle ∨ s.status = .done →
    ((∃ t, start e r s = .next t ∧ t.status = .failed ∧ t.err = .resourceExhausted) ↔
      s.cap < r.toNat ∧ s.params.maxRegs < s.capFor r.toNat))

/-- The frame of `call`, whatever its outcome: it stores to no register, neither to one that exists nor to one that its
growth creates (R58, R22), and it faults, fails or changes the frame stack, `in_use`, `cap` and `pc` alone. (The
capacity of a failed call: log 5.) -/
def Obligations.CallFrame : Prop :=
  ∀ (s t : State) (p n d : Word), exec (.call p n d) s = .next t →
    (∀ j, j < s.cap → RegKept j s t) ∧ (∀ i, s.cap ≤ i → i < t.cap → t.written i = false) ∧
    (t = s.faulted .zeroFrame ∨ t = s.faulted .destRange ∨
      t = { s with regs := t.regs, cap := t.cap, frames := [], status := .failed, err := .resourceExhausted } ∨
      t = { s with regs := t.regs, cap := t.cap, frames := t.frames, inUse := t.inUse, pc := t.pc })

/-- R83: `pc + 1` is exact and at most `N`; a call to an address at or past `N` creates its frame, and the first fetch
there faults FETCH_RANGE. -/
def Obligations.CallPastTheEndFaultsAtItsFetch : Prop :=
  ∀ (s t : State) (p n d : Word), s.Inv → s.fetched = some (.call p n d) → step s = .next t → t.status = .run →
    (s.pc + 1).toNat = s.pc.toNat + 1 ∧ s.pc.toNat + 1 ≤ s.imem.length ∧
    (s.imem.length ≤ p.toNat → t.sp = s.sp + 1 ∧ step t = .next (t.faulted .fetchRange) ∧
      (t.faulted .fetchRange).faultPc = p)

/-! ## Returns -/

/-- R155: `return` from a non-root frame completes whenever the window is not empty: the callee's relative register 0
goes to `dest`, `in_use` loses the window's length (R27 (4) makes that exact), `pc` is the frame's `resume_pc`, the
frame is gone, and nothing else changes. -/
def Obligations.ReturnDeliversToCaller : Prop :=
  ∀ (s : State) (cur : Frame) (rest : List Frame) (k : Nat), s.frames = cur :: rest → cur.link = some k →
    1 ≤ cur.len →
    ∃ t, exec .ret s = .next t ∧ t.readReg cur.dest = s.readReg cur.base ∧ t.written cur.dest = true ∧
      OthersKept cur.dest s t ∧ t.inUse = s.inUse - cur.len ∧ (s.Inv → t.inUse + cur.len = s.inUse) ∧
      t.pc = cur.resumePc ∧ t.frames = rest ∧
      t = { s with regs := t.regs, frames := t.frames, inUse := t.inUse, pc := t.pc }

/-- R156: `return` from the root frame writes the root's relative register 0 (`x[0]`, the root's base being 0) to
`result`, destroys the root and sets DONE; `pc`, `in_use`, `cap` and the register file keep their values. -/
def Obligations.RootReturnEndsTheRun : Prop :=
  ∀ (s : State) (cur : Frame) (rest : List Frame), s.frames = cur :: rest → cur.link = none → 1 ≤ cur.len →
    exec .ret s = .next { s with result := s.readReg cur.base, frames := [], status := .done } ∧
    (s.Inv → cur.base = 0 ∧ rest = [])

/-- The frame of `return`, whatever its outcome: every register but the frame's `dest` is kept, all of them when it
faults or ends the run; a fault changes what R182 says, a root return `result`, the frames and `status`, any other
the frames, `in_use`, `pc` and the one register. -/
def Obligations.ReturnFrame : Prop :=
  ∀ (s t : State) (cur : Frame) (rest : List Frame), s.frames = cur :: rest → exec .ret s = .next t →
    OthersKept cur.dest s t ∧
    ((cur.len = 0 ∧ t = s.faulted .relRange) ∨
      (1 ≤ cur.len ∧ cur.link = none ∧
        t = { s with result := t.result, frames := t.frames, status := t.status }) ∨
      (1 ≤ cur.len ∧ cur.link ≠ none ∧
        t = { s with regs := t.regs, frames := t.frames, inUse := t.inUse, pc := t.pc }))

/-! ## Growth (20_memory.md) -/

/-- R58: no growth when the need is reached; else the capacity the least number of increments reaches,
ResourceExhausted above MAX_REGS, and the new registers unwritten. -/
def Obligations.GrowthTakesTheLeastIncrements : Prop :=
  ∀ (s : State) (need : Nat), s.params.Ok →
    (need ≤ s.cap → s.grow need = some s) ∧
    (s.cap < need →
      ∃ k, 1 ≤ k ∧ need ≤ s.cap + k * s.params.growInc ∧
        (∀ m, 1 ≤ m → need ≤ s.cap + m * s.params.growInc → k ≤ m) ∧
        (s.params.maxRegs < s.cap + k * s.params.growInc → s.grow need = none) ∧
        (s.cap + k * s.params.growInc ≤ s.params.maxRegs →
          ∃ g, s.grow need = some g ∧ g.cap = s.cap + k * s.params.growInc ∧
            ∀ i, s.cap ≤ i → i < g.cap → g.written i = false))

/-- R59: growth keeps word and record of every register that existed and every frame; the new registers are
unwritten. -/
def Obligations.GrowthPreservesRegistersAndFrames : Prop :=
  ∀ (s g : State) (need : Nat), s.grow need = some g →
    (∀ i, i < s.cap → RegKept i s g) ∧ g.frames = s.frames ∧
    (∀ i, s.cap ≤ i → i < g.cap → g.written i = false)

/-- R60, R22: no step and no start decreases `cap` or clears the record of a written register that exists. -/
def Obligations.CapacityAndRecordsNeverShrink : Prop :=
  (∀ s t : State, step s = .next t →
    s.cap ≤ t.cap ∧ ∀ j, j < s.cap → s.written j = true → t.written j = true) ∧
  (∀ (s t : State) (e r : Word), start e r s = .next t →
    s.cap ≤ t.cap ∧ ∀ j, j < s.cap → s.written j = true → t.written j = true)

/-! ## Faults and exhaustion (60_exceptions.md) -/

/-- R182: a step into FAULT changes `status`, `fault_code` and `fault_pc` alone, `fault_pc` being the faulting `pc`; no
further step happens and a start is refused. -/
def Obligations.FaultsArePrecise : Prop :=
  ∀ s t : State, s.status = .run → step s = .next t → t.status = .fault →
    t = { s with status := .fault, faultCode := t.faultCode, faultPc := s.pc } ∧ t.faultCode ≠ .none ∧
    (∀ k, runFor k t = .next t) ∧ ∀ e r, start e r t = .refused .startNotAccepted

/-- R181's columns "cause" and "raised by": which instruction, on which operands, records which code. -/
def Obligations.FaultCodesNameTheirCauses : Prop :=
  ∀ s t : State, s.status = .run → step s = .next t → t.status = .fault →
    (t.faultCode = .fetchRange ↔ s.imem.length ≤ s.pc.toNat) ∧
    (t.faultCode = .illegalInstruction ↔ ∃ w e, s.imem[s.pc.toNat]? = some w ∧ decodeWord w = .error e) ∧
    (t.faultCode = .absRange ↔
      (∃ d src, s.fetched = some (.move d src) ∧ (s.cap ≤ d.toNat ∨ s.cap ≤ src.toNat)) ∨
      (∃ d v, s.fetched = some (.moveImmediate d v) ∧ s.cap ≤ d.toNat)) ∧
    (t.faultCode = .relRange ↔ ∃ cur rest, s.frames = cur :: rest ∧
      ((∃ d src, s.fetched = some (.add d src) ∧ (cur.len ≤ d.toNat ∨ cur.len ≤ src.toNat)) ∨
        (∃ d v, s.fetched = some (.addImmediate d v) ∧ cur.len ≤ d.toNat) ∨
        (∃ r, s.fetched = some (.increment r) ∧ cur.len ≤ r.toNat) ∨
        (∃ r, s.fetched = some (.decrement r) ∧ cur.len ≤ r.toNat) ∨
        (s.fetched = some .ret ∧ cur.len = 0))) ∧
    (t.faultCode = .zeroFrame ↔ ∃ p n d, s.fetched = some (.call p n d) ∧ n.toNat = 0) ∧
    (t.faultCode = .destRange ↔ ∃ cur rest p n d, s.frames = cur :: rest ∧
      s.fetched = some (.call p n d) ∧ n.toNat ≠ 0 ∧ cur.len ≤ d.toNat)

/-- R186: a step or a start that ends FAILED has destroyed every live frame, set `err`, and left `result`, every
register that existed and everything else as it was (`cap` may have grown, the new registers unwritten); no step happens
afterwards and a start is refused. -/
def Obligations.ExhaustionUnwindsEveryFrame : Prop :=
  (∀ s t : State, s.status = .run → step s = .next t → t.status = .failed →
    t = { s with regs := t.regs, cap := t.cap, frames := [], status := .failed, err := .resourceExhausted } ∧
    s.cap ≤ t.cap ∧ (∀ j, j < s.cap → RegKept j s t) ∧
    (∀ i, s.cap ≤ i → i < t.cap → t.written i = false) ∧ (∃ p n d, s.fetched = some (.call p n d)) ∧
    (∀ k, runFor k t = .next t) ∧ ∀ e r, start e r t = .refused .startNotAccepted) ∧
  (∀ (s t : State) (e r : Word), start e r s = .next t → t.status = .failed →
    t = { s with frames := [], status := .failed, err := .resourceExhausted, faultCode := .none } ∧
    (∀ k, runFor k t = .next t) ∧ ∀ e' r', start e' r' t = .refused .startNotAccepted)

/-- R156, R215: only the root frame's `return` ends a run in DONE. -/
def Obligations.OnlyTheRootReturnSucceeds : Prop :=
  ∀ s t : State, s.Inv → s.status = .run → step s = .next t → t.status = .done →
    s.fetched = some .ret ∧ s.sp = 1 ∧ t.result = s.readReg 0

/-- R150: `call` and `return` are "the only instructions that change `pc` other than by 1, the frame stack, ...
`in_use` and `cap`". -/
def Obligations.OnlyCallAndReturnMoveFrames : Prop :=
  ∀ (i : Instr) (s t : State), i ≠ .ret → (∀ p n d, i ≠ .call p n d) → exec i s = .next t →
    t.frames = s.frames ∧ t.inUse = s.inUse ∧ t.cap = s.cap ∧
      (t.pc = s.pc + 1 ∨ ∃ c, t = s.faulted c)

/-- R82: where `pc` goes. It moves by exactly 1 after the six sequential instructions, to `target_pc` after a call, to
the returning frame's `resume_pc` after a non-root return; a root return and every fault (a fetch or a decoding that
faults among them) keep it. -/
def Obligations.ProgramCounterUpdate : Prop :=
  (∀ (s t : State) (i : Instr), s.Inv → s.fetched = some i → step s = .next t →
    (t.status = .run →
      (i ≠ .ret → (∀ p n d, i ≠ .call p n d) → t.pc.toNat = s.pc.toNat + 1) ∧
      (∀ p n d, i = .call p n d → t.pc = p) ∧
      (i = .ret → ∀ cur rest, s.frames = cur :: rest → t.pc = cur.resumePc)) ∧
    (t.status = .done → i = .ret ∧ t.pc = s.pc)) ∧
  (∀ s t : State, s.status = .run → step s = .next t → t.status = .fault → t.pc = s.pc)

/-! ## The host (70_reset_and_hazards.md) -/

/-- R32, R181: the codes the host reads, and that no other code occurs. -/
def Obligations.HostReadsTheSpecCodes : Prop :=
  ∀ s : State,
    ((readStatus s).status.toNat = 0 ↔ s.status = .idle) ∧ ((readStatus s).status.toNat = 1 ↔ s.status = .run) ∧
    ((readStatus s).status.toNat = 2 ↔ s.status = .done) ∧ ((readStatus s).status.toNat = 3 ↔ s.status = .failed) ∧
    ((readStatus s).status.toNat = 4 ↔ s.status = .fault) ∧ (readStatus s).status.toNat ≤ 4 ∧
    ((readStatus s).err.toNat = 1 ↔ s.err = .resourceExhausted) ∧
    ((readStatus s).faultCode.toNat = 1 ↔ s.faultCode = .fetchRange) ∧
    ((readStatus s).faultCode.toNat = 2 ↔ s.faultCode = .illegalInstruction) ∧
    ((readStatus s).faultCode.toNat = 3 ↔ s.faultCode = .absRange) ∧
    ((readStatus s).faultCode.toNat = 4 ↔ s.faultCode = .relRange) ∧
    ((readStatus s).faultCode.toNat = 5 ↔ s.faultCode = .zeroFrame) ∧
    ((readStatus s).faultCode.toNat = 6 ↔ s.faultCode = .destRange) ∧ (readStatus s).faultCode.toNat ≤ 6 ∧
    (readStatus s).result = s.result ∧ (readStatus s).faultPc = s.faultPc

/-- R33: the values the spec gives for reset, at `State.reset`. (The capacity, the parameters and the empty program of
`State.reset` are the model's choice, logs 3 and 4, and are not stated.) -/
def Obligations.ResetValues : Prop :=
  State.reset.pc = 0 ∧ State.reset.sp = 0 ∧ State.reset.inUse = 0 ∧ State.reset.status = .idle ∧
    State.reset.result = 0 ∧ State.reset.err = .none ∧ State.reset.faultCode = .none ∧ State.reset.faultPc = 0 ∧
    ∀ i, State.reset.written i = false

/-- R210: `init` is accepted in any status, takes the program and the capacity, and gives every state element the value
of R33; no instruction is executed, for none runs before a start. It is the only host interaction that changes a core in
FAULT or FAILED. That `init` keeps GROW_INC, MAX_REGS and MAX_FRAMES is the model's choice (log 3), no rule of the
spec. -/
def Obligations.InitResetsEverything : Prop :=
  (∀ (s : State) (program : List IWord) (initCap : Nat), s.params.Ok → program.length < 2 ^ 64 →
    initCap ≤ s.params.maxRegs →
    ∃ t, transact (.init program initCap) s = .next t ∧ t.imem = program ∧ t.cap = initCap ∧
      (∀ i, t.written i = false) ∧ t.pc = 0 ∧ t.sp = 0 ∧ t.inUse = 0 ∧ t.status = .idle ∧ t.result = 0 ∧
      t.err = .none ∧ t.faultCode = .none ∧ t.faultPc = 0 ∧ t.params = s.params ∧ ∀ k, runFor k t = .next t) ∧
  (∀ (s t : State) (c : HostCommand), s.status = .fault ∨ s.status = .failed → transact c s = .next t → t ≠ s →
    ∃ program initCap, c = .init program initCap)

/-- R211: a start is accepted exactly in IDLE and DONE, and refused in RUN, FAILED and FAULT. -/
def Obligations.StartAcceptedOnlyIdleOrDone : Prop :=
  ∀ (s : State) (e r : Word),
    ((∃ t, start e r s = .next t) ↔ s.status = .idle ∨ s.status = .done) ∧
    (start e r s = .refused .startNotAccepted ↔ s.status = .run ∨ s.status = .failed ∨ s.status = .fault)

/-- R212: an accepted start clears `err` and `fault_code`, then grows to the root window; when the growth raises
ResourceExhausted it ends FAILED with no frame and nothing else changed. -/
def Obligations.StartGrowsTheRegisterFile : Prop :=
  ∀ (s : State) (e r : Word), s.status = .idle ∨ s.status = .done →
    ((s.grow r.toNat = none →
      start e r s = .next { s with err := .resourceExhausted, faultCode := .none, status := .failed,
                                   frames := [] }) ∧
    (∀ g, s.grow r.toNat = some g →
      ∃ t, start e r s = .next t ∧ t.err = .none ∧ t.faultCode = .none ∧ t.cap = g.cap ∧ t.regs = g.regs))

/-- R213, R214: an accepted start whose growth succeeds creates the root frame, sets `pc`, `in_use` and RUN, and
clears no register; an `entry_pc >= N` faults at the first fetch, and a root window of 0 is accepted and faults at its
`return`. -/
def Obligations.StartEntersTheRootFrame : Prop :=
  ∀ (s : State) (e r : Word), s.status = .idle ∨ s.status = .done →
    (r.toNat ≤ s.cap ∨ s.capFor r.toNat ≤ s.params.maxRegs) →
    ∃ t, start e r s = .next t ∧
      t.frames = [{ link := none, resumePc := 0, base := 0, len := r.toNat, dest := 0 }] ∧ t.sp = 1 ∧
      t.pc = e ∧ t.inUse = r.toNat ∧ t.status = .run ∧ (∀ j, j < s.cap → RegKept j s t) ∧
      t.result = s.result ∧ t.faultPc = s.faultPc ∧ t.imem = s.imem ∧
      (s.imem.length ≤ e.toNat → step t = .next (t.faulted .fetchRange)) ∧
      (r.toNat = 0 → exec .ret t = .next (t.faulted .relRange))

/-- R34: a successful end leaves registers, records, `cap` and `in_use` as the last instruction left them, and the next
start sets only `pc`, the frames, `in_use` and the control state, growing the file if it must. -/
def Obligations.StatePersistsAcrossRuns : Prop :=
  ∀ (s t u : State) (e r : Word), s.status = .run → step s = .next t → t.status = .done →
    start e r t = .next u →
    t = { s with result := t.result, frames := t.frames, status := t.status } ∧
    (∀ j, j < s.cap → RegKept j s u) ∧ s.cap ≤ u.cap ∧
    u = { t with regs := u.regs, cap := u.cap, pc := u.pc, frames := u.frames, inUse := u.inUse,
                 status := u.status, err := u.err, faultCode := u.faultCode }

/-! ## Invariants (10_state.md) -/

/-- The state after reset meets the invariant. -/
def Obligations.ResetMeetsInvariant : Prop := State.reset.Inv

/-- Every step from a state with the invariant answers a next state, never a stop, and that state has the invariant
(R27, R32, R25, and the register file's canonical form). -/
def Obligations.StepKeepsInvariant : Prop :=
  ∀ s : State, s.Inv → ∃ t, step s = .next t ∧ t.Inv

/-- An accepted `init` establishes the invariant from any state, and an accepted start keeps it. -/
def Obligations.InitAndStartKeepInvariant : Prop :=
  (∀ (s t : State) (program : List IWord) (initCap : Nat), init program initCap s = .next t → t.Inv) ∧
  (∀ (s t : State) (e r : Word), s.Inv → start e r s = .next t → t.Inv)

/-- R27, on the slots `FS[0 .. sp-1]`, root first: what the invariant says of a running core. -/
def Obligations.RunningFrameStackShape : Prop :=
  ∀ s : State, s.Inv → s.status = .run →
    1 ≤ s.sp ∧
    (∀ root, s.frames.reverse[0]? = some root → root.base = 0 ∧ root.link = none) ∧
    (∀ (k : Nat) (f p : Frame), s.frames.reverse[k + 1]? = some f → s.frames.reverse[k]? = some p →
      f.base = p.base + p.len ∧ 1 ≤ f.len ∧ p.base ≤ f.dest ∧ f.dest < f.base ∧ f.link = some k) ∧
    (∀ cur, s.frames.head? = some cur → s.inUse = cur.base + cur.len) ∧
    s.inUse = (s.frames.map Frame.len).sum ∧ s.inUse ≤ s.cap ∧ s.cap ≤ s.params.maxRegs

/-- Register files in canonical form with the same words and the same records are the same data. -/
def Obligations.RegisterFileIsCanonical : Prop :=
  ∀ a b : RegFile, Memory.wf a = true → Memory.wf b = true → (∀ i, a.lookup i = b.lookup i) → a = b

/-- R35, R64: no step and no start changes the program or the parameters. -/
def Obligations.ProgramAndParametersAreFixed : Prop :=
  (∀ s t : State, step s = .next t → t.imem = s.imem ∧ t.params = s.params ∧ t.initCount = s.initCount) ∧
  (∀ (s t : State) (e r : Word), start e r s = .next t →
    t.imem = s.imem ∧ t.params = s.params ∧ t.initCount = s.initCount)

/-! ## Rules about the whole machine -/

/-- R158: the control state of a run (`pc`, frames, `in_use`, `cap`, `status`, fault and error) depends on the program,
the start and the parameters, "never on register values". -/
def Obligations.ControlNeverDependsOnRegisterValues : Prop :=
  ∀ (s t : State) (k : Nat), SameButValues s t → SameOutcomeButValues (runFor k s) (runFor k t)

/-- R159: every run from an accepted start ends within `sum_{k=1}^{MAX_FRAMES} (N + 1)^k` steps, in DONE, FAILED or
FAULT. -/
def Obligations.EveryRunEnds : Prop :=
  ∀ (s t : State) (e r : Word), s.Inv → start e r s = .next t →
    ∃ u, runFor (runBound t.imem.length t.params.maxFrames) t = .next u ∧
      (u.status = .done ∨ u.status = .failed ∨ u.status = .fault)

/-- R103: a word that `move` or `move_immediate` writes at `in_use + j` before a call of a window longer than `j` is
the callee's relative register `j` on entry. -/
def Obligations.PremovedWordIsCalleeRegister : Prop :=
  ∀ (s t u : State) (x v src p n d j : Word) (i : Instr), s.status = .run → x.toNat = s.inUse + j.toNat →
    j.toNat < n.toNat → x.toNat < s.cap →
    ((i = .moveImmediate x v) ∨ (i = .move x src ∧ src.toNat < s.cap ∧ v = s.readReg src.toNat)) →
    exec i s = .next t → exec (.call p n d) t = .next u → u.status = .run →
    ∃ callee rest, u.frames = callee :: rest ∧ rest = s.frames ∧ relAddr callee j = .ok x.toNat ∧
      u.readReg x.toNat = v ∧ u.written x.toNat = true

/-- The source's sixth property (L1-6), from any frame: a parameter pre-moved into the callee's window, a callee that
does `add_immediate 0, k` and returns, and the caller's destination register holds the sum; the caller goes on behind
the call with its own frame stack. -/
def Obligations.CallWithParameterYieldsTheSum : Prop :=
  ∀ (s : State) (cur : Frame) (rest : List Frame) (x v p n d k : Word), s.Inv → s.frames = cur :: rest →
    x.toNat = s.inUse → x.toNat < s.cap → 1 ≤ n.toNat → d.toNat < cur.len →
    (s.inUse + n.toNat ≤ s.cap ∨ s.capFor (s.inUse + n.toNat) ≤ s.params.maxRegs) → s.sp ≠ s.params.maxFrames →
    ∃ t1 t2 t3 t4, exec (.moveImmediate x v) s = .next t1 ∧ exec (.call p n d) t1 = .next t2 ∧
      exec (.addImmediate 0 k) t2 = .next t3 ∧ exec .ret t3 = .next t4 ∧
      (t4.readReg (cur.base + d.toNat)).toNat = (v.toNat + k.toNat) % 2 ^ 64 ∧
      t4.frames = s.frames ∧ t4.inUse = s.inUse ∧ t4.pc = s.pc + 2

/-- R104: when a callee writes the register that is its own `dest` by the absolute path, with `move` or with
`move_immediate`, its later `return` overwrites that write with its relative register 0. -/
def Obligations.ReturnOverwritesTheCalleesWrite : Prop :=
  ∀ (s : State) (cur caller : Frame) (rest : List Frame) (x v src : Word) (i : Instr), s.Inv →
    s.frames = cur :: caller :: rest → x.toNat = cur.dest →
    ((i = .moveImmediate x v) ∨ (i = .move x src ∧ src.toNat < s.cap ∧ v = s.readReg src.toNat)) →
    ∃ t u, exec i s = .next t ∧ t.readReg cur.dest = v ∧ exec .ret t = .next u ∧
      u.readReg cur.dest = s.readReg cur.base

/-- R22, R184: a step that meets no UNINIT_READ does not see the free value of an unwritten register: with any other
argument of the free value it does the same. -/
def Obligations.OnlyUnwrittenReadsSeeTheFreeValue : Prop :=
  ∀ (s t : State) (n : Nat), stepReadsUnwritten s = false → step s = .next t →
    step { s with initCount := n } = .next { t with initCount := n }

/-- R155, R157, L1-7: however long a callee runs and however many calls it makes, the step that first brings the depth
back to the caller's resumes right behind the call, with the caller's own frame stack and in-use count, and the
callee's relative register 0 in the destination the call named. -/
def Obligations.CalleeReturnsBehindItsCall : Prop :=
  ∀ (s t u v : State) (k : Nat) (cur : Frame) (p n d : Word), s.Inv → s.frames.head? = some cur →
    s.fetched = some (.call p n d) → step s = .next t → t.status = .run →
    (∀ j, j ≤ k → ∃ w, runFor j t = .next w ∧ w.status = .run ∧ s.sp < w.sp) →
    runFor k t = .next v → step v = .next u → u.status = .run → u.sp ≤ s.sp →
    u.frames = s.frames ∧ u.pc.toNat = s.pc.toNat + 1 ∧ u.inUse = s.inUse ∧
      u.readReg (cur.base + d.toNat) = v.readReg s.inUse
end

