-- ==== Sys2Proof/Laws/Encoding.lean ====
section
/-! SUPPORT. Each field of a packed word is the field that was packed (R70), and a word is its four fields. -/

namespace Sys2Proof

/-- Bit `i` of a packed word, by the field it lies in (R70). -/
theorem IWord.getLsbD_pack (op : BitVec 8) (a b c : Word) (i : Nat) :
    (IWord.pack op a b c).getLsbD i =
      if i < 8 then op.getLsbD i else if i < 72 then a.getLsbD (i - 8)
      else if i < 136 then b.getLsbD (i - 72) else c.getLsbD (i - 136) := by
  show BitVec.getLsbD (w := 64 + 64 + 64 + 8) (c ++ b ++ a ++ op) i = _
  simp only [BitVec.getLsbD_append]
  by_cases h1 : i < 8
  · simp [h1]
  · by_cases h2 : i < 72
    · have : i - 8 < 64 := by omega
      simp [h1, h2, this]
    · have h2' : ¬ i - 8 < 64 := by omega
      have e2 : i - 8 - 64 = i - 72 := by omega
      by_cases h3 : i < 136
      · have : i - 72 < 64 := by omega
        simp [h1, h2, h2', h3, e2, this]
      · have h3' : ¬ i - 72 < 64 := by omega
        have e3 : i - 72 - 64 = i - 136 := by omega
        simp [h1, h2, h2', h3, h3', e2, e3]

theorem IWord.op_pack (op : BitVec 8) (a b c : Word) : (IWord.pack op a b c).op = op := by
  apply BitVec.eq_of_getLsbD_eq
  intro i hi
  rw [IWord.op, BitVec.getLsbD_extractLsb', getLsbD_pack]
  simp [hi]

theorem IWord.fieldA_pack (op : BitVec 8) (a b c : Word) : (IWord.pack op a b c).fieldA = a := by
  apply BitVec.eq_of_getLsbD_eq
  intro i hi
  rw [IWord.fieldA, BitVec.getLsbD_extractLsb', getLsbD_pack]
  simp [hi, show 8 + i < 72 by omega]

theorem IWord.fieldB_pack (op : BitVec 8) (a b c : Word) : (IWord.pack op a b c).fieldB = b := by
  apply BitVec.eq_of_getLsbD_eq
  intro i hi
  rw [IWord.fieldB, BitVec.getLsbD_extractLsb', getLsbD_pack]
  simp [hi, show ¬ 72 + i < 8 by omega, show ¬ 72 + i < 72 by omega, show 72 + i < 136 by omega]

theorem IWord.fieldC_pack (op : BitVec 8) (a b c : Word) : (IWord.pack op a b c).fieldC = c := by
  apply BitVec.eq_of_getLsbD_eq
  intro i hi
  rw [IWord.fieldC, BitVec.getLsbD_extractLsb', getLsbD_pack]
  simp [hi, show ¬ 136 + i < 8 by omega, show ¬ 136 + i < 72 by omega, show ¬ 136 + i < 136 by omega]

theorem IWord.pack_fields (w : IWord) : IWord.pack w.op w.fieldA w.fieldB w.fieldC = w := by
  apply BitVec.eq_of_getLsbD_eq
  intro i hi
  simp only [getLsbD_pack, IWord.op, IWord.fieldA, IWord.fieldB, IWord.fieldC, BitVec.getLsbD_extractLsb']
  by_cases h1 : i < 8
  · simp [h1]
  · by_cases h2 : i < 72
    · simp [h1, h2, show i - 8 < 64 by omega, show 8 + (i - 8) = i by omega]
    · by_cases h3 : i < 136
      · simp [h1, h2, h3, show i - 72 < 64 by omega, show 72 + (i - 72) = i by omega]
      · simp [h1, h2, h3, show i - 136 < 64 by omega, show 136 + (i - 136) = i by omega]

end Sys2Proof
end

