-- ==== Sys2Proof/Laws/State.lean ====
section
/-! SUPPORT. One lemma per field per update of State, so that no later proof unfolds an update. -/

namespace Sys2Proof.Machine

variable (s : State)

/-! ### `writeReg` -/

@[simp] theorem State.writeReg_params (i : Nat) (v : Word) : (s.writeReg i v).params = s.params := rfl
@[simp] theorem State.writeReg_imem (i : Nat) (v : Word) : (s.writeReg i v).imem = s.imem := rfl
@[simp] theorem State.writeReg_regs (i : Nat) (v : Word) : (s.writeReg i v).regs = s.regs.store i v := rfl
@[simp] theorem State.writeReg_cap (i : Nat) (v : Word) : (s.writeReg i v).cap = s.cap := rfl
@[simp] theorem State.writeReg_pc (i : Nat) (v : Word) : (s.writeReg i v).pc = s.pc := rfl
@[simp] theorem State.writeReg_frames (i : Nat) (v : Word) : (s.writeReg i v).frames = s.frames := rfl
@[simp] theorem State.writeReg_inUse (i : Nat) (v : Word) : (s.writeReg i v).inUse = s.inUse := rfl
@[simp] theorem State.writeReg_status (i : Nat) (v : Word) : (s.writeReg i v).status = s.status := rfl
@[simp] theorem State.writeReg_result (i : Nat) (v : Word) : (s.writeReg i v).result = s.result := rfl
@[simp] theorem State.writeReg_err (i : Nat) (v : Word) : (s.writeReg i v).err = s.err := rfl
@[simp] theorem State.writeReg_faultCode (i : Nat) (v : Word) : (s.writeReg i v).faultCode = s.faultCode := rfl
@[simp] theorem State.writeReg_faultPc (i : Nat) (v : Word) : (s.writeReg i v).faultPc = s.faultPc := rfl
@[simp] theorem State.writeReg_initCount (i : Nat) (v : Word) : (s.writeReg i v).initCount = s.initCount := rfl

/-! ### `advance` -/

@[simp] theorem State.advance_params : s.advance.params = s.params := rfl
@[simp] theorem State.advance_imem : s.advance.imem = s.imem := rfl
@[simp] theorem State.advance_regs : s.advance.regs = s.regs := rfl
@[simp] theorem State.advance_cap : s.advance.cap = s.cap := rfl
@[simp] theorem State.advance_pc : s.advance.pc = s.pc + 1 := rfl
@[simp] theorem State.advance_frames : s.advance.frames = s.frames := rfl
@[simp] theorem State.advance_inUse : s.advance.inUse = s.inUse := rfl
@[simp] theorem State.advance_status : s.advance.status = s.status := rfl
@[simp] theorem State.advance_result : s.advance.result = s.result := rfl
@[simp] theorem State.advance_err : s.advance.err = s.err := rfl
@[simp] theorem State.advance_faultCode : s.advance.faultCode = s.faultCode := rfl
@[simp] theorem State.advance_faultPc : s.advance.faultPc = s.faultPc := rfl
@[simp] theorem State.advance_initCount : s.advance.initCount = s.initCount := rfl

/-! ### `faulted` -/

@[simp] theorem State.faulted_params (c : FaultCode) : (s.faulted c).params = s.params := rfl
@[simp] theorem State.faulted_imem (c : FaultCode) : (s.faulted c).imem = s.imem := rfl
@[simp] theorem State.faulted_regs (c : FaultCode) : (s.faulted c).regs = s.regs := rfl
@[simp] theorem State.faulted_cap (c : FaultCode) : (s.faulted c).cap = s.cap := rfl
@[simp] theorem State.faulted_pc (c : FaultCode) : (s.faulted c).pc = s.pc := rfl
@[simp] theorem State.faulted_frames (c : FaultCode) : (s.faulted c).frames = s.frames := rfl
@[simp] theorem State.faulted_inUse (c : FaultCode) : (s.faulted c).inUse = s.inUse := rfl
@[simp] theorem State.faulted_status (c : FaultCode) : (s.faulted c).status = .fault := rfl
@[simp] theorem State.faulted_result (c : FaultCode) : (s.faulted c).result = s.result := rfl
@[simp] theorem State.faulted_err (c : FaultCode) : (s.faulted c).err = s.err := rfl
@[simp] theorem State.faulted_faultCode (c : FaultCode) : (s.faulted c).faultCode = c := rfl
@[simp] theorem State.faulted_faultPc (c : FaultCode) : (s.faulted c).faultPc = s.pc := rfl
@[simp] theorem State.faulted_initCount (c : FaultCode) : (s.faulted c).initCount = s.initCount := rfl

/-! ### `exhausted` -/

@[simp] theorem State.exhausted_params : s.exhausted.params = s.params := rfl
@[simp] theorem State.exhausted_imem : s.exhausted.imem = s.imem := rfl
@[simp] theorem State.exhausted_regs : s.exhausted.regs = s.regs := rfl
@[simp] theorem State.exhausted_cap : s.exhausted.cap = s.cap := rfl
@[simp] theorem State.exhausted_pc : s.exhausted.pc = s.pc := rfl
@[simp] theorem State.exhausted_frames : s.exhausted.frames = [] := rfl
@[simp] theorem State.exhausted_inUse : s.exhausted.inUse = s.inUse := rfl
@[simp] theorem State.exhausted_status : s.exhausted.status = .failed := rfl
@[simp] theorem State.exhausted_result : s.exhausted.result = s.result := rfl
@[simp] theorem State.exhausted_err : s.exhausted.err = .resourceExhausted := rfl
@[simp] theorem State.exhausted_faultCode : s.exhausted.faultCode = s.faultCode := rfl
@[simp] theorem State.exhausted_faultPc : s.exhausted.faultPc = s.faultPc := rfl
@[simp] theorem State.exhausted_initCount : s.exhausted.initCount = s.initCount := rfl

/-! ### `growTo` -/

@[simp] theorem State.growTo_params (n : Nat) : (s.growTo n).params = s.params := rfl
@[simp] theorem State.growTo_imem (n : Nat) : (s.growTo n).imem = s.imem := rfl
@[simp] theorem State.growTo_regs (n : Nat) : (s.growTo n).regs = s.regs.unwriteFrom s.cap := rfl
@[simp] theorem State.growTo_cap (n : Nat) : (s.growTo n).cap = n := rfl
@[simp] theorem State.growTo_pc (n : Nat) : (s.growTo n).pc = s.pc := rfl
@[simp] theorem State.growTo_frames (n : Nat) : (s.growTo n).frames = s.frames := rfl
@[simp] theorem State.growTo_inUse (n : Nat) : (s.growTo n).inUse = s.inUse := rfl
@[simp] theorem State.growTo_status (n : Nat) : (s.growTo n).status = s.status := rfl
@[simp] theorem State.growTo_result (n : Nat) : (s.growTo n).result = s.result := rfl
@[simp] theorem State.growTo_err (n : Nat) : (s.growTo n).err = s.err := rfl
@[simp] theorem State.growTo_faultCode (n : Nat) : (s.growTo n).faultCode = s.faultCode := rfl
@[simp] theorem State.growTo_faultPc (n : Nat) : (s.growTo n).faultPc = s.faultPc := rfl
@[simp] theorem State.growTo_initCount (n : Nat) : (s.growTo n).initCount = s.initCount := rfl

/-! ### `enterFrame` -/

@[simp] theorem State.enterFrame_params (f : Frame) (p : Word) : (s.enterFrame f p).params = s.params := rfl
@[simp] theorem State.enterFrame_imem (f : Frame) (p : Word) : (s.enterFrame f p).imem = s.imem := rfl
@[simp] theorem State.enterFrame_regs (f : Frame) (p : Word) : (s.enterFrame f p).regs = s.regs := rfl
@[simp] theorem State.enterFrame_cap (f : Frame) (p : Word) : (s.enterFrame f p).cap = s.cap := rfl
@[simp] theorem State.enterFrame_pc (f : Frame) (p : Word) : (s.enterFrame f p).pc = p := rfl
@[simp] theorem State.enterFrame_frames (f : Frame) (p : Word) : (s.enterFrame f p).frames = f :: s.frames := rfl
@[simp] theorem State.enterFrame_inUse (f : Frame) (p : Word) : (s.enterFrame f p).inUse = s.inUse + f.len := rfl
@[simp] theorem State.enterFrame_status (f : Frame) (p : Word) : (s.enterFrame f p).status = s.status := rfl
@[simp] theorem State.enterFrame_result (f : Frame) (p : Word) : (s.enterFrame f p).result = s.result := rfl
@[simp] theorem State.enterFrame_err (f : Frame) (p : Word) : (s.enterFrame f p).err = s.err := rfl
@[simp] theorem State.enterFrame_faultCode (f : Frame) (p : Word) : (s.enterFrame f p).faultCode = s.faultCode := rfl
@[simp] theorem State.enterFrame_faultPc (f : Frame) (p : Word) : (s.enterFrame f p).faultPc = s.faultPc := rfl
@[simp] theorem State.enterFrame_initCount (f : Frame) (p : Word) : (s.enterFrame f p).initCount = s.initCount := rfl

/-! ### `leaveFrame` -/

@[simp] theorem State.leaveFrame_params (f : Frame) : (s.leaveFrame f).params = s.params := rfl
@[simp] theorem State.leaveFrame_imem (f : Frame) : (s.leaveFrame f).imem = s.imem := rfl
@[simp] theorem State.leaveFrame_regs (f : Frame) : (s.leaveFrame f).regs = s.regs := rfl
@[simp] theorem State.leaveFrame_cap (f : Frame) : (s.leaveFrame f).cap = s.cap := rfl
@[simp] theorem State.leaveFrame_pc (f : Frame) : (s.leaveFrame f).pc = f.resumePc := rfl
@[simp] theorem State.leaveFrame_frames (f : Frame) : (s.leaveFrame f).frames = s.frames.tail := rfl
@[simp] theorem State.leaveFrame_inUse (f : Frame) : (s.leaveFrame f).inUse = s.inUse - f.len := rfl
@[simp] theorem State.leaveFrame_status (f : Frame) : (s.leaveFrame f).status = s.status := rfl
@[simp] theorem State.leaveFrame_result (f : Frame) : (s.leaveFrame f).result = s.result := rfl
@[simp] theorem State.leaveFrame_err (f : Frame) : (s.leaveFrame f).err = s.err := rfl
@[simp] theorem State.leaveFrame_faultCode (f : Frame) : (s.leaveFrame f).faultCode = s.faultCode := rfl
@[simp] theorem State.leaveFrame_faultPc (f : Frame) : (s.leaveFrame f).faultPc = s.faultPc := rfl
@[simp] theorem State.leaveFrame_initCount (f : Frame) : (s.leaveFrame f).initCount = s.initCount := rfl

/-! ### `finished` -/

@[simp] theorem State.finished_params (v : Word) : (s.finished v).params = s.params := rfl
@[simp] theorem State.finished_imem (v : Word) : (s.finished v).imem = s.imem := rfl
@[simp] theorem State.finished_regs (v : Word) : (s.finished v).regs = s.regs := rfl
@[simp] theorem State.finished_cap (v : Word) : (s.finished v).cap = s.cap := rfl
@[simp] theorem State.finished_pc (v : Word) : (s.finished v).pc = s.pc := rfl
@[simp] theorem State.finished_frames (v : Word) : (s.finished v).frames = [] := rfl
@[simp] theorem State.finished_inUse (v : Word) : (s.finished v).inUse = s.inUse := rfl
@[simp] theorem State.finished_status (v : Word) : (s.finished v).status = .done := rfl
@[simp] theorem State.finished_result (v : Word) : (s.finished v).result = v := rfl
@[simp] theorem State.finished_err (v : Word) : (s.finished v).err = s.err := rfl
@[simp] theorem State.finished_faultCode (v : Word) : (s.finished v).faultCode = s.faultCode := rfl
@[simp] theorem State.finished_faultPc (v : Word) : (s.finished v).faultPc = s.faultPc := rfl
@[simp] theorem State.finished_initCount (v : Word) : (s.finished v).initCount = s.initCount := rfl

/-! ### `cleared` -/

@[simp] theorem State.cleared_params : s.cleared.params = s.params := rfl
@[simp] theorem State.cleared_imem : s.cleared.imem = s.imem := rfl
@[simp] theorem State.cleared_regs : s.cleared.regs = s.regs := rfl
@[simp] theorem State.cleared_cap : s.cleared.cap = s.cap := rfl
@[simp] theorem State.cleared_pc : s.cleared.pc = s.pc := rfl
@[simp] theorem State.cleared_frames : s.cleared.frames = s.frames := rfl
@[simp] theorem State.cleared_inUse : s.cleared.inUse = s.inUse := rfl
@[simp] theorem State.cleared_status : s.cleared.status = s.status := rfl
@[simp] theorem State.cleared_result : s.cleared.result = s.result := rfl
@[simp] theorem State.cleared_err : s.cleared.err = .none := rfl
@[simp] theorem State.cleared_faultCode : s.cleared.faultCode = .none := rfl
@[simp] theorem State.cleared_faultPc : s.cleared.faultPc = s.faultPc := rfl
@[simp] theorem State.cleared_initCount : s.cleared.initCount = s.initCount := rfl

/-! ### `launched` -/

@[simp] theorem State.launched_params (e : Word) (n : Nat) : (s.launched e n).params = s.params := rfl
@[simp] theorem State.launched_imem (e : Word) (n : Nat) : (s.launched e n).imem = s.imem := rfl
@[simp] theorem State.launched_regs (e : Word) (n : Nat) : (s.launched e n).regs = s.regs := rfl
@[simp] theorem State.launched_cap (e : Word) (n : Nat) : (s.launched e n).cap = s.cap := rfl
@[simp] theorem State.launched_pc (e : Word) (n : Nat) : (s.launched e n).pc = e := rfl
@[simp] theorem State.launched_frames (e : Word) (n : Nat) : (s.launched e n).frames = [rootFrame n] := rfl
@[simp] theorem State.launched_inUse (e : Word) (n : Nat) : (s.launched e n).inUse = n := rfl
@[simp] theorem State.launched_status (e : Word) (n : Nat) : (s.launched e n).status = .run := rfl
@[simp] theorem State.launched_result (e : Word) (n : Nat) : (s.launched e n).result = s.result := rfl
@[simp] theorem State.launched_err (e : Word) (n : Nat) : (s.launched e n).err = s.err := rfl
@[simp] theorem State.launched_faultCode (e : Word) (n : Nat) : (s.launched e n).faultCode = s.faultCode := rfl
@[simp] theorem State.launched_faultPc (e : Word) (n : Nat) : (s.launched e n).faultPc = s.faultPc := rfl
@[simp] theorem State.launched_initCount (e : Word) (n : Nat) : (s.launched e n).initCount = s.initCount := rfl

end Sys2Proof.Machine
end

