-- ==== Sys2Proof/Laws/RegFile.lean ====
section
/-! SUPPORT. The laws of the register file: read after write, what a write leaves alone, the canonical form. -/

namespace Sys2Proof.Machine

@[simp] theorem RegFile.lookup_nil (i : Nat) : RegFile.lookup [] i = none := rfl

theorem RegFile.lookup_cons (j : Nat) (v : Word) (r : RegFile) (i : Nat) :
    RegFile.lookup ((j, v) :: r) i = if i = j then some v else r.lookup i := rfl

@[simp] theorem RegFile.lookup_store_self (r : RegFile) (i : Nat) (v : Word) : (r.store i v).lookup i = some v := by
  induction r with
  | nil => simp [store, lookup]
  | cons e r ih =>
    obtain ⟨j, w⟩ := e
    simp only [store]
    split
    · simp [lookup]
    · split <;> simp_all [lookup]

theorem RegFile.lookup_store_ne (r : RegFile) {i k : Nat} (v : Word) (h : k ≠ i) :
    (r.store i v).lookup k = r.lookup k := by
  induction r with
  | nil => simp [store, lookup, h]
  | cons e r ih =>
    obtain ⟨j, w⟩ := e
    simp only [store]
    split
    · simp [lookup, h]
    · split <;> simp_all [lookup]

theorem RegFile.lookup_unwriteFrom (r : RegFile) (lo i : Nat) :
    (r.unwriteFrom lo).lookup i = if i < lo then r.lookup i else none := by
  unfold unwriteFrom
  induction r with
  | nil => simp
  | cons e r ih =>
    obtain ⟨j, w⟩ := e
    by_cases hj : j < lo
    · rw [List.filter_cons_of_pos (by simpa using hj)]
      simp only [lookup, ih]
      by_cases hij : i = j
      · simp [hij, hj]
      · simp [hij]
    · rw [List.filter_cons_of_neg (by simpa using hj), ih]
      by_cases hi : i < lo
      · have hij : i ≠ j := fun h => hj (h ▸ hi)
        simp [hi, lookup, hij]
      · simp [hi]

/-- A register that is listed is an entry of the list. -/
theorem RegFile.mem_of_lookup {r : RegFile} {i : Nat} {v : Word} (h : r.lookup i = some v) : (i, v) ∈ r := by
  induction r with
  | nil => simp at h
  | cons e r ih =>
    obtain ⟨j, w⟩ := e
    simp only [lookup] at h
    split at h
    · simp_all
    · simp [ih h]

/-- The canonical form is that the indices are pairwise rising. -/
theorem Memory.wf_iff_pairwise (r : RegFile) : Memory.wf r = true ↔ r.Pairwise fun a b => a.1 < b.1 := by
  induction r with
  | nil => simp [Memory.wf]
  | cons e r ih =>
    obtain ⟨i, v⟩ := e
    cases r with
    | nil => simp [Memory.wf]
    | cons e' r =>
      obtain ⟨j, w⟩ := e'
      simp only [Memory.wf, Bool.and_eq_true, decide_eq_true_eq, ih, List.pairwise_cons, List.mem_cons,
        forall_eq_or_imp]
      constructor
      · rintro ⟨hij, hj, hr⟩
        exact ⟨⟨hij, fun a ha => Nat.lt_trans hij (hj a ha)⟩, hj, hr⟩
      · rintro ⟨⟨hij, -⟩, hj, hr⟩
        exact ⟨hij, hj, hr⟩

/-- What a write can make an entry: one that was there, or the one written. -/
theorem RegFile.mem_store {r : RegFile} {i : Nat} {v : Word} {e : Nat × Word} (h : e ∈ r.store i v) :
    e = (i, v) ∨ e ∈ r := by
  induction r with
  | nil => simpa [store] using h
  | cons e' r ih =>
    obtain ⟨j, w⟩ := e'
    simp only [store] at h
    split at h
    · simpa using h
    · split at h
      · simp only [List.mem_cons] at h ⊢
        rcases h with h | h
        · exact .inl h
        · exact .inr (.inr h)
      · simp only [List.mem_cons] at h ⊢
        rcases h with h | h
        · exact .inr (.inl h)
        · rcases ih h with h | h
          · exact .inl h
          · exact .inr (.inr h)

/-- A write keeps the canonical form. -/
theorem RegFile.wf_store {r : RegFile} (i : Nat) (v : Word) (h : Memory.wf r = true) :
    Memory.wf (r.store i v) = true := by
  rw [Memory.wf_iff_pairwise] at h ⊢
  induction r with
  | nil => simp [store]
  | cons e r ih =>
    obtain ⟨j, w⟩ := e
    obtain ⟨hj, hr⟩ := List.pairwise_cons.1 h
    simp only [store]
    split
    · rename_i hij
      refine List.pairwise_cons.2 ⟨?_, h⟩
      intro a ha
      rcases List.mem_cons.1 ha with rfl | ha
      · exact hij
      · exact Nat.lt_trans hij (hj a ha)
    · split
      · rename_i hij
        exact List.pairwise_cons.2 ⟨fun a ha => hij ▸ hj a ha, hr⟩
      · rename_i h1 h2
        refine List.pairwise_cons.2 ⟨?_, ih hr⟩
        intro a ha
        rcases mem_store ha with rfl | ha
        · simp only; omega
        · exact hj a ha

/-- Growth keeps the canonical form. -/
theorem RegFile.wf_unwriteFrom {r : RegFile} (lo : Nat) (h : Memory.wf r = true) :
    Memory.wf (r.unwriteFrom lo) = true := by
  rw [Memory.wf_iff_pairwise] at h ⊢
  exact List.Pairwise.filter _ h

/-- Every entry that growth keeps was there and lies below the old capacity. -/
theorem RegFile.mem_unwriteFrom {r : RegFile} {lo : Nat} {e : Nat × Word} (h : e ∈ r.unwriteFrom lo) :
    e ∈ r ∧ e.1 < lo := by
  simpa [unwriteFrom] using h

/-! ## Reading a state's registers -/

@[simp] theorem State.readReg_writeReg_self (s : State) (i : Nat) (v : Word) : (s.writeReg i v).readReg i = v := by
  simp [readReg]

theorem State.readReg_writeReg_ne (s : State) {i j : Nat} (v : Word) (h : j ≠ i) :
    (s.writeReg i v).readReg j = s.readReg j := by
  simp [readReg, RegFile.lookup_store_ne _ _ h]

@[simp] theorem State.written_writeReg_self (s : State) (i : Nat) (v : Word) :
    (s.writeReg i v).written i = true := by
  simp [written]

theorem State.written_writeReg_ne (s : State) {i j : Nat} (v : Word) (h : j ≠ i) :
    (s.writeReg i v).written j = s.written j := by
  simp [written, RegFile.lookup_store_ne _ _ h]

/-- Reading depends on the register file and the argument of the free value alone. -/
theorem State.readReg_congr {s t : State} (hr : t.regs = s.regs) (hc : t.initCount = s.initCount) (i : Nat) :
    t.readReg i = s.readReg i := by
  simp [readReg, hr, hc]

theorem State.written_congr {s t : State} (hr : t.regs = s.regs) (i : Nat) : t.written i = s.written i := by
  simp [written, hr]

@[simp] theorem State.readReg_advance (s : State) (i : Nat) : s.advance.readReg i = s.readReg i := rfl
@[simp] theorem State.written_advance (s : State) (i : Nat) : s.advance.written i = s.written i := rfl
@[simp] theorem State.readReg_faulted (s : State) (c : FaultCode) (i : Nat) :
    (s.faulted c).readReg i = s.readReg i := rfl
@[simp] theorem State.written_faulted (s : State) (c : FaultCode) (i : Nat) :
    (s.faulted c).written i = s.written i := rfl
@[simp] theorem State.readReg_exhausted (s : State) (i : Nat) : s.exhausted.readReg i = s.readReg i := rfl
@[simp] theorem State.written_exhausted (s : State) (i : Nat) : s.exhausted.written i = s.written i := rfl
@[simp] theorem State.readReg_enterFrame (s : State) (f : Frame) (p : Word) (i : Nat) :
    (s.enterFrame f p).readReg i = s.readReg i := rfl
@[simp] theorem State.written_enterFrame (s : State) (f : Frame) (p : Word) (i : Nat) :
    (s.enterFrame f p).written i = s.written i := rfl
@[simp] theorem State.readReg_leaveFrame (s : State) (f : Frame) (i : Nat) :
    (s.leaveFrame f).readReg i = s.readReg i := rfl
@[simp] theorem State.written_leaveFrame (s : State) (f : Frame) (i : Nat) :
    (s.leaveFrame f).written i = s.written i := rfl
@[simp] theorem State.readReg_finished (s : State) (v : Word) (i : Nat) :
    (s.finished v).readReg i = s.readReg i := rfl
@[simp] theorem State.written_finished (s : State) (v : Word) (i : Nat) :
    (s.finished v).written i = s.written i := rfl
@[simp] theorem State.readReg_launched (s : State) (e : Word) (n i : Nat) :
    (s.launched e n).readReg i = s.readReg i := rfl
@[simp] theorem State.written_launched (s : State) (e : Word) (n i : Nat) :
    (s.launched e n).written i = s.written i := rfl
@[simp] theorem State.readReg_cleared (s : State) (i : Nat) : s.cleared.readReg i = s.readReg i := rfl
@[simp] theorem State.written_cleared (s : State) (i : Nat) : s.cleared.written i = s.written i := rfl

/-- The new registers of a growth are unwritten, the old ones keep word and record. -/
theorem State.readReg_growTo (s : State) (n i : Nat) (h : i < s.cap) : (s.growTo n).readReg i = s.readReg i := by
  simp [readReg, RegFile.lookup_unwriteFrom, h]

theorem State.written_growTo (s : State) (n i : Nat) :
    (s.growTo n).written i = if i < s.cap then s.written i else false := by
  simp only [written, growTo_regs, RegFile.lookup_unwriteFrom]
  split <;> simp

end Sys2Proof.Machine
end

