-- ==== Sys2Proof/Laws/Ops.lean ====
section
/-! SUPPORT. For each shared operation, once, everything it can do. -/

namespace Sys2Proof.Machine

/-! ## The adder -/

theorem addW_eq (a b : Word) : addW a b = a + b := by
  apply BitVec.eq_of_toNat_eq
  simp [addW, BitVec.toNat_add]

theorem subW_eq (a b : Word) : subW a b = a - b := by
  apply BitVec.eq_of_toNat_eq
  have hb := b.isLt
  simp only [subW, BitVec.toNat_ofNat, BitVec.toNat_sub, Nat.mod_mod]
  congr 1
  omega

/-! ## Addressing -/

theorem absAddr_ok_iff {s : State} {i : Word} {a : Nat} : absAddr s i = .ok a ↔ i.toNat < s.cap ∧ a = i.toNat := by
  unfold absAddr
  split <;> simp_all [eq_comm] <;> omega

theorem absAddr_error_iff {s : State} {i : Word} {c : FaultCode} :
    absAddr s i = .error c ↔ s.cap ≤ i.toNat ∧ c = .absRange := by
  unfold absAddr
  split <;> simp_all [eq_comm] <;> omega

theorem relAddr_ok_iff {f : Frame} {r : Word} {a : Nat} :
    relAddr f r = .ok a ↔ r.toNat < f.len ∧ a = f.base + r.toNat := by
  unfold relAddr
  split <;> simp_all [eq_comm] <;> omega

theorem relAddr_error_iff {f : Frame} {r : Word} {c : FaultCode} :
    relAddr f r = .error c ↔ f.len ≤ r.toNat ∧ c = .relRange := by
  unfold relAddr
  split <;> simp_all [eq_comm] <;> omega

theorem destAddr_ok_iff {f : Frame} {t : Word} {a : Nat} :
    destAddr f t = .ok a ↔ t.toNat < f.len ∧ a = f.base + t.toNat := by
  unfold destAddr
  split <;> simp_all [eq_comm] <;> omega

theorem destAddr_error_iff {f : Frame} {t : Word} {c : FaultCode} :
    destAddr f t = .error c ↔ f.len ≤ t.toNat ∧ c = .destRange := by
  unfold destAddr
  split <;> simp_all [eq_comm] <;> omega

@[simp] theorem withAddr_ok (s : State) (i : Nat) (k : Nat → Out) : withAddr s (.ok i) k = k i := rfl

@[simp] theorem withAddr_error (s : State) (c : FaultCode) (k : Nat → Out) :
    withAddr s (.error c) k = .next (s.faulted c) := rfl

/-- An operand check ends in the fault it raises or goes on with the index. -/
theorem withAddr_cases {s t : State} {a : Except FaultCode Nat} {k : Nat → Out} (h : withAddr s a k = .next t) :
    (∃ c, a = .error c ∧ t = s.faulted c) ∨ ∃ i, a = .ok i ∧ k i = .next t := by
  cases a with
  | error c => exact .inl ⟨c, rfl, by simpa [eq_comm] using h⟩
  | ok i => exact .inr ⟨i, rfl, h⟩

theorem withCur_cons {s : State} {cur : Frame} {rest : List Frame} (h : s.frames = cur :: rest) (k : Frame → Out) :
    withCur s k = k cur := by
  simp [withCur, h]

/-- With a next state there is a current frame. -/
theorem withCur_cases {s t : State} {k : Frame → Out} (h : withCur s k = .next t) :
    ∃ cur rest, s.frames = cur :: rest ∧ k cur = .next t := by
  unfold withCur at h
  split at h
  · simp at h
  · exact ⟨_, _, by assumption, h⟩

/-! ## Faults and exhaustion -/

theorem raiseFault_eq_next {c : FaultCode} {s t : State} : raiseFault c s = .next t ↔ t = s.faulted c := by
  simp [raiseFault, eq_comm]

theorem raiseExhausted_eq_next {s t : State} : raiseExhausted s = .next t ↔ t = s.exhausted := by
  simp [raiseExhausted, eq_comm]

/-! ## Growth -/

theorem State.capFor_of_le {s : State} {need : Nat} (h : need ≤ s.cap) : s.capFor need = s.cap := by
  simp [capFor, h]

/-- A growth never lowers the capacity. -/
theorem State.cap_le_capFor (s : State) (need : Nat) : s.cap ≤ s.capFor need := by
  unfold capFor
  split
  · exact Nat.le_refl _
  · exact Nat.le_add_right _ _

/-- What a successful growth leaves: the state itself, or the file at the new capacity. -/
theorem State.grow_eq_some {s g : State} {need : Nat} :
    s.grow need = some g ↔
      (need ≤ s.cap ∧ g = s) ∨
        (s.cap < need ∧ s.capFor need ≤ s.params.maxRegs ∧ g = s.growTo (s.capFor need)) := by
  unfold grow
  split
  · have h1 : ¬ s.cap < need := by omega
    simp [*, eq_comm]
  · have h1 : s.cap < need := by omega
    split <;> simp [*, eq_comm]

theorem State.grow_eq_none {s : State} {need : Nat} :
    s.grow need = none ↔ s.cap < need ∧ s.params.maxRegs < s.capFor need := by
  unfold grow
  split
  · have h1 : ¬ s.cap < need := by omega
    simp [h1]
  · have h1 : s.cap < need := by omega
    split <;> simp [h1] <;> omega

/-- Whatever the growth did, only the register file and the capacity can differ, and every register that existed is
kept. -/
theorem State.grow_frame {s g : State} {need : Nat} (h : s.grow need = some g) :
    g = { s with regs := g.regs, cap := g.cap } ∧ g.cap = s.capFor need ∧
      ∀ i, i < s.cap → g.readReg i = s.readReg i ∧ g.written i = s.written i := by
  rcases grow_eq_some.1 h with ⟨hle, rfl⟩ | ⟨-, -, rfl⟩
  · exact ⟨rfl, (capFor_of_le hle).symm, fun _ _ => ⟨rfl, rfl⟩⟩
  · exact ⟨rfl, rfl, fun i hi => ⟨readReg_growTo _ _ _ hi, by simp [written_growTo, hi]⟩⟩

/-- The registers that a growth creates are unwritten (R58, R22). -/
theorem State.written_grow_new {s g : State} {need i : Nat} (h : s.grow need = some g) (hi : s.cap ≤ i)
    (hg : i < g.cap) : g.written i = false := by
  rcases grow_eq_some.1 h with ⟨-, rfl⟩ | ⟨-, -, rfl⟩
  · omega
  · simp [written_growTo, show ¬ i < s.cap by omega]

/-! ## The program counter -/

theorem State.fetch_eq_none {s : State} : s.fetch = none ↔ s.imem.length ≤ s.pc.toNat := by
  simp [fetch]

theorem State.lt_of_fetch {s : State} {w : IWord} (h : s.fetch = some w) : s.pc.toNat < s.imem.length := by
  rw [fetch] at h
  exact (List.getElem?_eq_some_iff.1 h).1

end Sys2Proof.Machine
end

