-- ==== Sys2Proof/Laws/Exec.lean ====
section
/-! SUPPORT. For each instruction, and for a step, once, everything that can come of it. -/

namespace Sys2Proof.Machine

variable {s t : State}

/-- `move`: an absolute index out of range, or the copy (R101). -/
theorem execMove_cases {d src : Word} (h : execMove d src s = .next t) :
    ((s.cap ≤ d.toNat ∨ s.cap ≤ src.toNat) ∧ t = s.faulted .absRange) ∨
      (d.toNat < s.cap ∧ src.toNat < s.cap ∧ t = (s.writeReg d.toNat (s.readReg src.toNat)).advance) := by
  rcases withAddr_cases h with ⟨c, hc, rfl⟩ | ⟨i, hi, h⟩
  · obtain ⟨hd, rfl⟩ := absAddr_error_iff.1 hc
    exact .inl ⟨.inl hd, rfl⟩
  · obtain ⟨hd, rfl⟩ := absAddr_ok_iff.1 hi
    rcases withAddr_cases h with ⟨c, hc, rfl⟩ | ⟨j, hj, h⟩
    · obtain ⟨hs, rfl⟩ := absAddr_error_iff.1 hc
      exact .inl ⟨.inr hs, rfl⟩
    · obtain ⟨hs, rfl⟩ := absAddr_ok_iff.1 hj
      exact .inr ⟨hd, hs, by simpa [eq_comm] using h⟩

/-- `move_immediate`: an absolute index out of range, or the write (R102). -/
theorem execMoveImmediate_cases {d v : Word} (h : execMoveImmediate d v s = .next t) :
    (s.cap ≤ d.toNat ∧ t = s.faulted .absRange) ∨
      (d.toNat < s.cap ∧ t = (s.writeReg d.toNat v).advance) := by
  rcases withAddr_cases h with ⟨c, hc, rfl⟩ | ⟨i, hi, h⟩
  · obtain ⟨hd, rfl⟩ := absAddr_error_iff.1 hc
    exact .inl ⟨hd, rfl⟩
  · obtain ⟨hd, rfl⟩ := absAddr_ok_iff.1 hi
    exact .inr ⟨hd, by simpa [eq_comm] using h⟩

/-- `add`: a relative index out of range, or the sum (R121). -/
theorem execAdd_cases {d src : Word} (h : execAdd d src s = .next t) :
    ∃ cur rest, s.frames = cur :: rest ∧
      (((cur.len ≤ d.toNat ∨ cur.len ≤ src.toNat) ∧ t = s.faulted .relRange) ∨
        (d.toNat < cur.len ∧ src.toNat < cur.len ∧
          t = (s.writeReg (cur.base + d.toNat)
            (addW (s.readReg (cur.base + d.toNat)) (s.readReg (cur.base + src.toNat)))).advance)) := by
  obtain ⟨cur, rest, hf, h⟩ := withCur_cases h
  refine ⟨cur, rest, hf, ?_⟩
  rcases withAddr_cases h with ⟨c, hc, rfl⟩ | ⟨i, hi, h⟩
  · obtain ⟨hd, rfl⟩ := relAddr_error_iff.1 hc
    exact .inl ⟨.inl hd, rfl⟩
  · obtain ⟨hd, rfl⟩ := relAddr_ok_iff.1 hi
    rcases withAddr_cases h with ⟨c, hc, rfl⟩ | ⟨j, hj, h⟩
    · obtain ⟨hs, rfl⟩ := relAddr_error_iff.1 hc
      exact .inl ⟨.inr hs, rfl⟩
    · obtain ⟨hs, rfl⟩ := relAddr_ok_iff.1 hj
      exact .inr ⟨hd, hs, by simpa [eq_comm] using h⟩

/-- The in-place ALU forms: a relative index out of range, or the new value (R122, R123, R124). -/
theorem aluInPlace_cases {r : Word} {f : Word → Word} (h : aluInPlace r f s = .next t) :
    ∃ cur rest, s.frames = cur :: rest ∧
      ((cur.len ≤ r.toNat ∧ t = s.faulted .relRange) ∨
        (r.toNat < cur.len ∧
          t = (s.writeReg (cur.base + r.toNat) (f (s.readReg (cur.base + r.toNat)))).advance)) := by
  obtain ⟨cur, rest, hf, h⟩ := withCur_cases h
  refine ⟨cur, rest, hf, ?_⟩
  rcases withAddr_cases h with ⟨c, hc, rfl⟩ | ⟨i, hi, h⟩
  · obtain ⟨hd, rfl⟩ := relAddr_error_iff.1 hc
    exact .inl ⟨hd, rfl⟩
  · obtain ⟨hd, rfl⟩ := relAddr_ok_iff.1 hi
    exact .inr ⟨hd, by simpa [eq_comm] using h⟩

/-- `call`: the two operand faults, the two exhaustions, or the new frame (R151). -/
theorem execCall_cases {p n d : Word} (h : execCall p n d s = .next t) :
    (n.toNat = 0 ∧ t = s.faulted .zeroFrame) ∨
      ∃ cur rest, s.frames = cur :: rest ∧ n.toNat ≠ 0 ∧
        ((cur.len ≤ d.toNat ∧ t = s.faulted .destRange) ∨
          (d.toNat < cur.len ∧ s.grow (s.inUse + n.toNat) = none ∧ t = s.exhausted) ∨
            ∃ g, d.toNat < cur.len ∧ s.grow (s.inUse + n.toNat) = some g ∧
              ((g.sp = g.params.maxFrames ∧ t = g.exhausted) ∨
                (g.sp ≠ g.params.maxFrames ∧
                  t = g.enterFrame
                    { link := some (s.sp - 1), resumePc := s.pc + 1, base := s.inUse, len := n.toNat,
                      dest := cur.base + d.toNat } p))) := by
  unfold execCall at h
  split at h
  · exact .inl ⟨‹_›, by simpa [raiseFault, eq_comm] using h⟩
  · rename_i hn
    obtain ⟨cur, rest, hf, h⟩ := withCur_cases h
    refine .inr ⟨cur, rest, hf, hn, ?_⟩
    rcases withAddr_cases h with ⟨c, hc, rfl⟩ | ⟨i, hi, h⟩
    · obtain ⟨hd, rfl⟩ := destAddr_error_iff.1 hc
      exact .inl ⟨hd, rfl⟩
    · obtain ⟨hd, rfl⟩ := destAddr_ok_iff.1 hi
      split at h
      · exact .inr (.inl ⟨hd, ‹_›, by simpa [raiseExhausted, eq_comm] using h⟩)
      · rename_i g hg
        refine .inr (.inr ⟨g, hd, hg, ?_⟩)
        split at h
        · exact .inl ⟨‹_›, by simpa [raiseExhausted, eq_comm] using h⟩
        · exact .inr ⟨‹_›, by simpa [eq_comm] using h⟩

/-- `return`: an empty window, the end of the run, or the return to the caller (R155, R156). -/
theorem execReturn_cases (h : execReturn s = .next t) :
    ∃ cur rest, s.frames = cur :: rest ∧
      ((cur.len = 0 ∧ t = s.faulted .relRange) ∨
        (1 ≤ cur.len ∧ cur.link = none ∧ t = s.finished (s.readReg cur.base)) ∨
          (1 ≤ cur.len ∧ (∃ k, cur.link = some k) ∧
            t = (s.writeReg cur.dest (s.readReg cur.base)).leaveFrame cur)) := by
  obtain ⟨cur, rest, hf, h⟩ := withCur_cases h
  refine ⟨cur, rest, hf, ?_⟩
  rcases withAddr_cases h with ⟨c, hc, rfl⟩ | ⟨i, hi, h⟩
  · obtain ⟨hd, rfl⟩ := relAddr_error_iff.1 hc
    exact .inl ⟨by simpa using hd, rfl⟩
  · obtain ⟨hd, rfl⟩ := relAddr_ok_iff.1 hi
    have hlen : 1 ≤ cur.len := by
      have : (0 : Word).toNat < cur.len := hd
      simpa [Nat.lt_iff_add_one_le] using this
    split at h
    · exact .inr (.inl ⟨hlen, ‹_›, by simpa [eq_comm] using h⟩)
    · exact .inr (.inr ⟨hlen, ⟨_, ‹_›⟩, by simpa [eq_comm] using h⟩)

/-! ## A step -/

/-- Not running: nothing (R84, R209). -/
theorem step_of_not_run (h : s.status ≠ .run) : step s = .next s := by
  unfold step
  split <;> simp_all

/-- Running: the fetch fault, the illegal word, or the decoded instruction (R79, R80, R81). -/
theorem step_of_run (h : s.status = .run) :
    (s.fetch = none ∧ step s = .next (s.faulted .fetchRange)) ∨
      ∃ w, s.fetch = some w ∧
        ((∃ e, decodeWord w = .error e ∧ step s = .next (s.faulted .illegalInstruction)) ∨
          ∃ i, decodeWord w = .ok i ∧ step s = exec i s) := by
  cases hf : s.fetch with
  | none => exact .inl ⟨rfl, by simp [step, h, hf, raiseFault]⟩
  | some w =>
    refine .inr ⟨w, rfl, ?_⟩
    cases hd : decodeWord w with
    | error e => exact .inl ⟨e, rfl, by simp [step, h, hf, hd, raiseFault]⟩
    | ok i => exact .inr ⟨i, rfl, by simp [step, h, hf, hd]⟩

end Sys2Proof.Machine
end

