-- ==== Sys2Proof/Laws/Launch.lean ====
section
/-! SUPPORT. What `init`, a start and the next fetched instruction are, once, and what the frame-stack part of the
invariant says of the current frame. -/

namespace Sys2Proof.Machine

variable {s t : State}

/-- `init` answers a next state only in R6's bounds, and then R33's (R210). -/
theorem init_cases {program : List IWord} {initCap : Nat} (h : init program initCap s = .next t) :
    s.params.Ok ∧ program.length < 2 ^ 64 ∧ initCap ≤ s.params.maxRegs ∧
      t = State.afterInit s.params (s.initCount + 1) program initCap := by
  unfold init at h
  by_cases h1 : s.params.Ok
  · by_cases h2 : program.length < 2 ^ 64
    · by_cases h3 : initCap ≤ s.params.maxRegs
      · rw [if_neg (not_not_intro h1), if_neg (not_not_intro h2), if_neg (not_not_intro h3)] at h
        exact ⟨h1, h2, h3, by simpa [eq_comm] using h⟩
      · rw [if_neg (not_not_intro h1), if_neg (not_not_intro h2), if_pos h3] at h
        simp at h
    · rw [if_neg (not_not_intro h1), if_pos h2] at h
      simp at h
  · rw [if_pos h1] at h
    simp at h

/-- A start answers a next state only from IDLE and DONE (R211). -/
theorem start_cases {e r : Word} (h : start e r s = .next t) :
    (s.status = .idle ∨ s.status = .done) ∧ t = launch e r s := by
  unfold start at h
  cases hs : s.status <;> simp [hs] at h <;> simp [h]

/-- An accepted start either fails to grow, or grows and enters the root frame (R212 to R214). -/
theorem launch_cases (s : State) (e r : Word) :
    (s.grow r.toNat = none ∧ launch e r s = s.cleared.exhausted) ∨
      ∃ g, s.grow r.toNat = some g ∧ launch e r s = g.cleared.launched e r.toNat := by
  unfold launch
  cases hg : s.cleared.grow r.toNat with
  | none => exact .inl ⟨State.grow_eq_none.2 ((State.grow_eq_none (s := s.cleared)).1 hg), rfl⟩
  | some g =>
    rcases State.grow_eq_some.1 hg with ⟨h, rfl⟩ | ⟨h1, h2, rfl⟩
    · exact .inr ⟨s, State.grow_eq_some.2 (.inl ⟨h, rfl⟩), rfl⟩
    · exact .inr ⟨_, State.grow_eq_some.2 (.inr ⟨h1, h2, rfl⟩), rfl⟩

/-- The fetched instruction of a running core, by its word. -/
theorem State.fetched_eq_some {i : Instr} :
    s.fetched = some i ↔ s.status = .run ∧ ∃ w, s.fetch = some w ∧ decodeWord w = .ok i := by
  unfold fetched
  cases hs : s.status <;> simp
  cases hf : s.fetch with
  | none => simp
  | some w => cases hd : decodeWord w <;> simp [hd]

/-- The step of a core that has fetched an instruction is its execution. -/
theorem step_of_fetched {i : Instr} (h : s.fetched = some i) : step s = exec i s := by
  obtain ⟨hr, w, hw, hd⟩ := State.fetched_eq_some.1 h
  simp [step, hr, hw, hd]

/-- A step of a running core is a fault of fetch or decode, or the execution of the fetched instruction. -/
theorem step_next_cases (hr : s.status = .run) (h : step s = .next t) :
    (t = s.faulted .fetchRange) ∨ (t = s.faulted .illegalInstruction) ∨
      ∃ i, s.fetched = some i ∧ exec i s = .next t := by
  rcases step_of_run hr with ⟨-, e⟩ | ⟨w, hw, ⟨-, -, e⟩ | ⟨i, hd, e⟩⟩
  · exact .inl (by simpa [e, eq_comm] using h)
  · exact .inr (.inl (by simpa [e, eq_comm] using h))
  · exact .inr (.inr ⟨i, State.fetched_eq_some.2 ⟨hr, w, hw, hd⟩, e ▸ h⟩)

/-- The current frame of a state with the invariant: a root at base 0, or a callee above its caller (R27). -/
theorem State.Inv.cur_cases (hi : s.Inv) {cur : Frame} {rest : List Frame} (hf : s.frames = cur :: rest) :
    (rest = [] ∧ cur.link = none ∧ cur.base = 0 ∧ cur.resumePc = 0 ∧ cur.dest = 0) ∨
      ∃ p r, rest = p :: r ∧ cur.link = some r.length ∧ cur.base = p.base + p.len ∧ 1 ≤ cur.len ∧
        p.base ≤ cur.dest ∧ cur.dest < cur.base ∧ cur.resumePc.toNat ≤ s.imem.length := by
  have h := hi.frames_ok
  rw [hf] at h
  cases rest with
  | nil =>
    simp only [framesOk, beq_iff_eq] at h
    rw [h]
    simp
  | cons p r =>
    simp only [framesOk, Bool.and_eq_true, decide_eq_true_eq] at h
    obtain ⟨⟨⟨⟨⟨⟨h1, h2⟩, h3⟩, h4⟩, h5⟩, h6⟩, -⟩ := h
    exact .inr ⟨p, r, rfl, h1, h2, h3, h4, h5, h6⟩

end Sys2Proof.Machine
end

