-- ==== Sys2Proof/Laws/PerInstr.lean ====
section
/-! SUPPORT. One lemma per constructor: what each field of an instruction's word holds (R72, R73). -/

namespace Sys2Proof.Laws.EncodeFields

/-- The word of `i` holds R72's opcode and R73's operands, zero where a field must be zero. -/
def Statement (i : Instr) : Prop :=
  (encode i).op = i.opcode ∧ (encode i).fieldA = i.operandA ∧ (encode i).fieldB = i.operandB ∧
    (encode i).fieldC = i.operandC

theorem of_pack (i : Instr) : Statement i :=
  ⟨IWord.op_pack _ _ _ _, IWord.fieldA_pack _ _ _ _, IWord.fieldB_pack _ _ _ _, IWord.fieldC_pack _ _ _ _⟩

theorem ret : Statement .ret := of_pack _
theorem call (targetPc frameSize destination : Word) : Statement (.call targetPc frameSize destination) := of_pack _
theorem move (d s : Word) : Statement (.move d s) := of_pack _
theorem moveImmediate (d v : Word) : Statement (.moveImmediate d v) := of_pack _
theorem add (d s : Word) : Statement (.add d s) := of_pack _
theorem addImmediate (d v : Word) : Statement (.addImmediate d v) := of_pack _
theorem increment (r : Word) : Statement (.increment r) := of_pack _
theorem decrement (r : Word) : Statement (.decrement r) := of_pack _

end Sys2Proof.Laws.EncodeFields
end

