-- ==== Sys2Proof/WellFormed.lean ====
section
/-! DEFINITION. The contract of a well-formed program as far as the instruction array alone shows it
(70_reset_and_hazards.md R217). Nothing in the machine assumes it: a program that breaks it runs into the fault the
spec names. -/

namespace Sys2Proof

/-- R151: `frame_size`, "the length of the new window in registers, which must be at least 1"; every W-bit value of
every other operand is legal in some state (R74, R75). A call that breaks it is encodable and faults ZERO_FRAME. -/
def Instr.wellFormed : Instr → Bool
  | .ret => true
  | .call _ frameSize _ => decide (1 ≤ frameSize.toNat)
  | .move _ _ => true
  | .moveImmediate _ _ => true
  | .add _ _ => true
  | .addImmediate _ _ => true
  | .increment _ => true
  | .decrement _ => true

/-- R217, "`pc` never past the end": the program address a call names lies in a program of `n` instructions (R83). -/
def Instr.targetWithin (n : Nat) : Instr → Bool
  | .ret => true
  | .call targetPc _ _ => decide (targetPc.toNat < n)
  | .move _ _ => true
  | .moveImmediate _ _ => true
  | .add _ _ => true
  | .addImmediate _ _ => true
  | .increment _ => true
  | .decrement _ => true

/-- A program as instructions: of a length R6 allows (`N < 2^W`, D29), each instruction well-formed and each call's
target inside it. -/
def Program.wellFormed (p : List Instr) : Bool :=
  decide (p.length < 2 ^ 64) && p.all fun i => i.wellFormed && i.targetWithin p.length

end Sys2Proof
end

