-- ==== Sys2Proof/Tests/Slice0.lean ====
section
/-! SUPPORT. Tests, their expected results taken from 95_test_vectors.md (the vector is named in each docstring) or
worked out by hand from the rule named, and one witness for the hypotheses of every statement. -/

namespace Sys2Proof.Tests

open Sys2Proof Sys2Proof.Machine

/-! ## Small states -/

/-- A running core with the test configuration, no program, and these registers, frames and in-use count. -/
def coreState (regs : RegFile) (frames : List Frame) (inUse : Nat) : State :=
  { State.reset with regs, frames, inUse, status := .run }

/-- A running core in its root frame of `n` registers. -/
def rooted (regs : RegFile) (n : Nat) : State := coreState regs [rootFrame n] n

/-- A callee of the root: `base 2, len 3`, returning to address 6 and register 1 (R155's example). -/
def callee : Frame := { link := some 0, resumePc := 6, base := 2, len := 3, dest := 1 }

/-- R155's example state, below a program of six instructions. -/
def inCallee : State :=
  { coreState [(2, 77)] [callee, rootFrame 2] 5 with imem := List.replicate 6 (encode .ret) }

/-- Does the outcome give a next state with this property? -/
def gives (o : Out) (p : State → Bool) : Bool :=
  match o with
  | .next t => p t
  | .fault _ => false
  | .refused _ => false

/-- The next state of an outcome that has one. -/
def out (o : Out) : State :=
  match o with
  | .next t => t
  | .fault _ => State.reset
  | .refused _ => State.reset

theorem next_out {o : Out} (h : gives o (fun _ => true) = true) : o = .next (out o) := by
  cases o with
  | next t => rfl
  | fault r => simp [gives] at h
  | refused r => simp [gives] at h

/-- A program running at address 0 in a root frame of `n` registers. -/
def running (program : List Instr) (regs : RegFile) (n : Nat) : State :=
  { rooted regs n with imem := program.map encode }

/-! ## WellFormed -/

/-- R151: a zero frame size. -/
theorem test_wellFormed_refuses_zero_frame : Instr.wellFormed (.call 0 0 0) = false := by decide

/-- R217: a call past the end. -/
theorem test_targetWithin_refuses_end : Instr.targetWithin 2 (.call 2 1 0) = false := by decide

/-- R217, R151: a program with an ill-formed instruction; one with a call past its end. -/
theorem test_program_refuses : Program.wellFormed [.call 0 0 0, .ret] = false ∧
    Program.wellFormed [.call 2 1 0, .ret] = false ∧ Program.wellFormed [.call 1 1 0, .ret] = true := by decide

/-- D29: a program of 2^64 instructions or more, whatever they are. -/
theorem test_program_refuses_length (p : List Instr) (h : 2 ^ 64 ≤ p.length) : Program.wellFormed p = false := by
  have h' : ¬ p.length < 2 ^ 64 := Nat.not_lt.2 h
  rw [Program.wellFormed, decide_eq_false h', Bool.false_and]

/-! ## Decoding: words written out as `C_B_A_op` (R70 to R73) -/

/-- L1-1, word 1. -/
theorem test_decode_return :
    decodeWord 0x00000000000000000000000000000000000000000000000000 = .ok .ret := by decide
/-- P1, address 5: `call 9, 1, 1`. -/
theorem test_decode_call :
    decodeWord 0x00000000000000010000000000000001000000000000000901 = .ok (.call 9 1 1) := by decide
/-- L1-6, address 1: `move 2, 1`. -/
theorem test_decode_move :
    decodeWord 0x00000000000000000000000000000001000000000000000202 = .ok (.move 2 1) := by decide
/-- P2, address 0: `move_immediate 0, 2^64 - 1`. -/
theorem test_decode_moveImmediate :
    decodeWord 0x0000000000000000ffffffffffffffff000000000000000003 = .ok (.moveImmediate 0 0xffffffffffffffff) := by
  decide
/-- P2, address 5: `add 0, 2`. -/
theorem test_decode_add :
    decodeWord 0x00000000000000000000000000000002000000000000000004 = .ok (.add 0 2) := by decide
/-- L1-6, address 4: `add_immediate 0, 2`. -/
theorem test_decode_addImmediate :
    decodeWord 0x00000000000000000000000000000002000000000000000005 = .ok (.addImmediate 0 2) := by decide
/-- R72, R73: `increment 9`. -/
theorem test_decode_increment :
    decodeWord 0x00000000000000000000000000000000000000000000000906 = .ok (.increment 9) := by decide
/-- R72, R73: `decrement 5`. -/
theorem test_decode_decrement :
    decodeWord 0x00000000000000000000000000000000000000000000000507 = .ok (.decrement 5) := by decide
/-- V-D6: no field of `call` is MBZ. -/
theorem test_decode_call_ones : decodeWord (BitVec.allOnes 200 - 0xfe) =
    .ok (.call 0xffffffffffffffff 0xffffffffffffffff 0xffffffffffffffff) := by decide
/-- V-D1, V-D2. -/
theorem test_decode_reserved : decodeWord 0x08 = .error (.reservedOpcode 0x08) ∧
    decodeWord 0xff = .error (.reservedOpcode 0xff) := by decide
/-- V-D3, V-D4, V-D5. -/
theorem test_decode_mustBeZero :
    decodeWord 0x00000000000000000000000000000000000000000000000100 = .error (.mustBeZero 0) ∧
    decodeWord 0x00000000000000010000000000000001000000000000000002 = .error (.mustBeZero 2) ∧
    decodeWord 0x00000000000000000000000000000001000000000000000006 = .error (.mustBeZero 6) := by decide
/-- R86: `move_immediate 1, 0x0203` as bytes, and an image cut short. -/
theorem test_image :
    decodeBytes ([3, 1, 0, 0, 0, 0, 0, 0, 0, 3, 2] ++ List.replicate 14 0 ++ [9]) =
      .ok (.moveImmediate 1 0x0203, [9]) ∧
    decodeBytes (List.replicate 24 0) = .error .truncatedImage ∧ programOfImage [0] = none := by decide
/-- Every row of the opcode table, its operands zero. -/
theorem test_table_words : (List.range 9).map (decodeTableWord 200) =
    [some .ret, some (.call 0 0 0), some (.move 0 0), some (.moveImmediate 0 0), some (.add 0 0),
      some (.addImmediate 0 0), some (.increment 0), some (.decrement 0), none] := by decide
/-- Every row runs as the first instruction after reset. -/
theorem test_table_words_run : ((List.range 8).all fun k =>
    gives (step (State.reset.withFetchWord 200 k)) fun _ => true) = true := by decide
/-- And does what its rule says: V-A11 at the table's zero operand, from a written register. -/
theorem test_withFetchWord_runs : gives (step ({ State.reset with regs := [(0, 41)] }.withFetchWord 8 6))
    (fun t => t.regs == [(0, 42)] && t.pc == 1 && t.status == .run) = true := by decide

/-! ## Assembly text (R85) -/

/-- L1-5 as text, a comment, an empty line and the source's notation in braces (the escapes are the two braces). -/
theorem test_assemble : Asm.assemble ["call 2, 1, 0 ; the callee is at 2", "", "  return", "MoveImmediate\x7b0,0x2a\x7d"] =
    some [0x00000000000000000000000000000001000000000000000201, 0x0,
      0x0000000000000000000000000000002a000000000000000003] := by decide
/-- An operand count, an operand of 2^64, a missing comma. -/
theorem test_assemble_refuses : Asm.lines ["add 0"] = none ∧ Asm.lines ["increment 18446744073709551616"] = none ∧
    Asm.lines ["move 0 1"] = none := by decide
/-- A printed line reads back. -/
theorem test_print : Asm.lines [Asm.print (.call 300 2 18446744073709551615)] =
    some [.call 300 2 18446744073709551615] := by decide

/-! ## The absolute path -/

/-- V-M3: the last register of the file, outside every window. -/
theorem test_move : gives (exec (.move 255 0) (rooted [(0, 3)] 1))
    (fun t => t.regs == [(0, 3), (255, 3)] && t.pc == 1) = true := by decide
/-- V-M5: `cap` is out of range. -/
theorem test_move_faults : gives (exec (.move 0 256) (rooted [(0, 3)] 1))
    (fun t => t.status == .fault && t.faultCode == .absRange && t.regs == [(0, 3)]) = true := by decide
/-- V-M8: no extension of the immediate. -/
theorem test_moveImmediate : gives (exec (.moveImmediate 3 0xffffffffffffffff) (rooted [] 1))
    (fun t => t.regs == [(3, 0xffffffffffffffff)] && t.pc == 1) = true := by decide
/-- V-M4. -/
theorem test_moveImmediate_faults : gives (exec (.moveImmediate 256 1) (rooted [] 1))
    (fun t => t.status == .fault && t.faultCode == .absRange && t.regs == []) = true := by decide

/-! ## The frame-relative path -/

/-- V-A1: the window `base 3, len 2`. -/
theorem test_add : gives (exec (.add 0 1) (coreState [(3, 5), (4, 9)] [{ callee with base := 3, len := 2 }] 5))
    (fun t => t.regs == [(3, 14), (4, 9)] && t.pc == 1) = true := by decide
/-- V-A3: `d = s` doubles modulo 2^64. -/
theorem test_add_same : gives (exec (.add 0 0) (rooted [(0, 0x8000000000000000)] 1))
    (fun t => t.regs == [(0, 0)]) = true := by decide
/-- V-A7: adding 2^64 - 1 subtracts 1. -/
theorem test_addImmediate : gives (exec (.addImmediate 0 0xffffffffffffffff) (rooted [(0, 5)] 1))
    (fun t => t.regs == [(0, 4)] && t.pc == 1) = true := by decide
/-- V-A9. -/
theorem test_addImmediate_faults : gives (exec (.addImmediate 1 0) (rooted [(1, 5)] 1))
    (fun t => t.status == .fault && t.faultCode == .relRange) = true := by decide
/-- V-A11. -/
theorem test_increment : gives (exec (.increment 0) (rooted [(0, 0xffffffffffffffff)] 1))
    (fun t => t.regs == [(0, 0)] && t.pc == 1) = true := by decide
/-- V-A12. -/
theorem test_increment_faults : gives (exec (.increment 1) (rooted [(1, 5)] 1))
    (fun t => t.status == .fault && t.faultCode == .relRange) = true := by decide
/-- V-A14. -/
theorem test_decrement : gives (exec (.decrement 0) (rooted [(0, 0)] 1))
    (fun t => t.regs == [(0, 0xffffffffffffffff)] && t.pc == 1) = true := by decide
/-- V-A15. -/
theorem test_decrement_faults : gives (exec (.decrement 1) (rooted [(1, 5)] 1))
    (fun t => t.status == .fault && t.faultCode == .relRange) = true := by decide

/-! ## The frame-stack controller -/

/-- V-C12, in a callee `base 1, len 3`: the destination is the callee's base and 2. -/
theorem test_call : gives (exec (.call 7 1 2) (coreState [] [{ callee with base := 1 }, rootFrame 1] 4))
    (fun t => t.frames.head? == some { link := some 1, resumePc := 1, base := 4, len := 1, dest := 3 } &&
      t.inUse == 5 && t.pc == 7 && t.sp == 3) = true := by decide
/-- V-C6 and V-C7: one increment; a need above MAX_REGS. -/
theorem test_call_grows : gives (exec (.call 0 256 0) (rooted [(0, 1)] 1))
      (fun t => t.cap == 512 && t.inUse == 257 && t.regs == [(0, 1)]) = true ∧
    gives (exec (.call 0 65536 0) (rooted [(0, 1)] 1))
      (fun t => t.status == .failed && t.err == .resourceExhausted && t.sp == 0 && t.cap == 256 &&
        t.regs == [(0, 1)]) = true := by decide
/-- V-R1. -/
theorem test_return : gives (exec .ret inCallee)
    (fun t => t.regs == [(1, 77), (2, 77)] && t.inUse == 2 && t.pc == 6 && t.sp == 1) = true := by decide
/-- V-R2. -/
theorem test_return_root : gives (exec .ret (rooted [(0, 9)] 1))
    (fun t => t.status == .done && t.result == 9 && t.sp == 0 && t.inUse == 1) = true := by decide

/-! ## Steps, starts, faults -/

/-- V-D8: the first fetch past the end. -/
theorem test_fetch_past_end : gives (step { running [.ret] [] 1 with pc := 1 })
    (fun t => t.status == .fault && t.faultCode == .fetchRange && t.faultPc == 1 && t.sp == 1) = true := by decide
/-- V-G1, its start: the file grows from 4 to 12. -/
theorem test_start_grows : gives (start 0 10 (State.afterInit { growInc := 4, maxRegs := 16, maxFrames := 64 } 0 [0] 4))
    (fun t => t.cap == 12 && t.inUse == 10 && t.status == .run && t.sp == 1) = true := by decide
/-- V-G2: a need of 17 above MAX_REGS = 16. -/
theorem test_start_fails : gives (start 0 17 (State.afterInit { growInc := 4, maxRegs := 16, maxFrames := 64 } 0 [0] 4))
    (fun t => t.cap == 4 && t.sp == 0 && readStatus t == ⟨3, 0, 1, 0, 0⟩) = true := by decide
/-- V-G6: `init` out of FAULT. -/
theorem test_init : gives (transact (.init [0] 256) (out (exec (.increment 1) (rooted [(1, 5)] 1))))
    (fun t => t.status == .idle && t.regs == [] && t.faultCode == .none && t.imem == [0]) = true := by decide
/-- V-M6, V-A16: what the spec's model would call UNINIT_READ, and the hardware runs. -/
theorem test_unwritten : stepReadsUnwritten (running [.move 0 5] [] 1) = true ∧
    specStep (running [.move 0 5] [] 1) = some .uninitRead ∧
    gives (step (running [.move 0 5] [] 1)) (fun t => t.status == .run && t.written 0) = true := by decide

/-! ## Witnesses: the hypotheses of each statement are met together

Where a statement has clauses, each has a witness, at the boundary of its range where it has one. -/

/-- A state in which all of `call`'s hypotheses hold and no growth is needed. -/
def small : State := running [.call 2 1 0, .ret, .ret] [(0, 7), (1, 8)] 1

/-- `small` with the root's frame slot alone. -/
def oneSlot : State := { small with params := { small.params with maxFrames := 1 } }

theorem small_inv : small.Inv := by constructor <;> decide
theorem inCallee_inv : inCallee.Inv := by constructor <;> decide

/-- `small` after its call. -/
def called : State := out (step small)

theorem witness_DecodedWordIsTheEncoding : decodeWord 6 = .ok (.increment 0) := by decide
theorem witness_ReservedOpcodesFault :
    ({ rooted [] 1 with imem := [0x08, 0xff] }).imem[(0 : Word).toNat]? = some 0x08 ∧
    8 ≤ ((0x08 : IWord).extractLsb' 0 8).toNat ∧
    ({ rooted [] 1 with imem := [0x08, 0xff] }).imem[(1 : Word).toNat]? = some 0xff ∧
    8 ≤ ((0xff : IWord).extractLsb' 0 8).toNat := by decide
theorem witness_NonzeroMustBeZeroFieldsFault :
    ((0x100 : IWord).extractLsb' 0 8 = 0 ∧ (0x100 : IWord).extractLsb' 8 64 ≠ 0) ∧
    ((IWord.pack 0 0 1 0).extractLsb' 0 8 = 0 ∧ (IWord.pack 0 0 1 0).extractLsb' 72 64 ≠ 0) ∧
    ((IWord.pack 0 0 0 1).extractLsb' 0 8 = 0 ∧ (IWord.pack 0 0 0 1).extractLsb' 136 64 ≠ 0) ∧
    (∀ op ∈ ([2, 5] : List (BitVec 8)), 2 ≤ ((IWord.pack op 0 0 1).extractLsb' 0 8).toNat ∧
      ((IWord.pack op 0 0 1).extractLsb' 0 8).toNat ≤ 5 ∧ (IWord.pack op 0 0 1).extractLsb' 136 64 ≠ 0) ∧
    (∀ op ∈ ([6, 7] : List (BitVec 8)), 6 ≤ ((IWord.pack op 0 1 0).extractLsb' 0 8).toNat ∧
      ((IWord.pack op 0 1 0).extractLsb' 0 8).toNat ≤ 7 ∧ (IWord.pack op 0 1 0).extractLsb' 72 64 ≠ 0) ∧
    (IWord.pack 7 0 0 1).extractLsb' 136 64 ≠ 0 ∧
    ({ rooted [] 1 with imem := [0x100] }).imem[(0 : Word).toNat]? = some 0x100 := by decide
theorem witness_ProgramImageRoundTrip : ([5, 6] : List IWord)[1]? = some 6 ∧ 24 < 25 := by decide
theorem witness_StepRunsTheFetchedInstruction : small.status = .run ∧
    small.imem[small.pc.toNat]? = some (encode (.call 2 1 0)) ∧
    decodeWord (encode (.call 2 1 0)) = .ok (.call 2 1 0) := by decide
theorem witness_FetchReadsOrFaults :
    ({ small with pc := 3 }).imem.length ≤ ({ small with pc := 3 }).pc.toNat ∧
    ({ small with pc := 2 }).pc.toNat < ({ small with pc := 2 }).imem.length := by decide
theorem witness_NoStepUnlessRunning : State.reset.status ≠ .run := by decide
theorem witness_MoveCopies : (255 : Word).toNat < small.cap ∧ (0 : Word).toNat < small.cap := by decide
theorem witness_MoveImmediateWrites : (255 : Word).toNat < small.cap := by decide
theorem witness_AbsolutePathIsBoundedByCapacity : (255 : Word).toNat < small.cap ∧
    small.cap ≤ (256 : Word).toNat := by decide
theorem witness_MoveFrame :
    moveDest (.move 255 0) = some 255 ∧ gives (exec (.move 255 0) small) (fun _ => true) = true ∧
    absAddr small 255 = .ok 255 ∧
    moveDest (.moveImmediate 256 0) = some 256 ∧ gives (exec (.moveImmediate 256 0) small) (fun _ => true) = true ∧
    absAddr small 256 = .error .absRange := by decide
theorem witness_MovesIgnoreTheFrameStack : moveDest (.moveImmediate 255 9) = some 255 ∧
    gives (exec (.moveImmediate 255 9) small) (fun _ => true) = true := by decide
theorem witness_AddSumsModuloWord : inCallee.frames = callee :: [rootFrame 2] ∧ (2 : Word).toNat < callee.len ∧
    (0 : Word).toNat < callee.len := by decide
theorem witness_AddImmediateSumsModuloWord : inCallee.frames = callee :: [rootFrame 2] ∧
    (2 : Word).toNat < callee.len := by decide
/-- The word that wraps, and the one below it. -/
theorem witness_IncrementAddsOne :
    (rooted [(0, 0xffffffffffffffff)] 1).frames = [rootFrame 1] ∧ (0 : Word).toNat < (rootFrame 1).len ∧
    ((rooted [(0, 0xffffffffffffffff)] 1).readReg ((rootFrame 1).base + (0 : Word).toNat)).toNat = 2 ^ 64 - 1 ∧
    ((rooted [(0, 0xfffffffffffffffe)] 1).readReg ((rootFrame 1).base + (0 : Word).toNat)).toNat ≠ 2 ^ 64 - 1 := by
  decide
/-- The word that wraps, and the one above it. -/
theorem witness_DecrementSubtractsOne :
    (rooted [(0, 0)] 1).frames = [rootFrame 1] ∧ (0 : Word).toNat < (rootFrame 1).len ∧
    ((rooted [(0, 0)] 1).readReg ((rootFrame 1).base + (0 : Word).toNat)).toNat = 0 ∧
    ((rooted [(0, 1)] 1).readReg ((rootFrame 1).base + (0 : Word).toNat)).toNat ≠ 0 := by decide
theorem witness_RelativePathIsBoundedByWindow : inCallee.Inv ∧ inCallee.frames = callee :: [rootFrame 2] ∧
    (2 : Word).toNat < callee.len ∧ callee.len ≤ (3 : Word).toNat ∧
    (rooted [] 0).frames = [rootFrame 0] ∧ (rootFrame 0).len = 0 :=
  ⟨inCallee_inv, by decide⟩
theorem witness_AluFrame : inCallee.frames = callee :: [rootFrame 2] ∧ aluDest (.increment 0) = some 0 ∧
    gives (exec (.increment 0) inCallee) (fun _ => true) = true ∧ relAddr callee 0 = .ok 2 ∧
    aluDest (.add 3 0) = some 3 ∧ gives (exec (.add 3 0) inCallee) (fun _ => true) = true ∧
    relAddr callee 3 = .error .relRange := by decide
/-- The window is register 0; register 1, outside it, differs. -/
theorem witness_AluSeesOnlyItsWindow : aluDest (.increment 0) = some 0 ∧ small.frames = rootFrame 1 :: [] ∧
    (∀ j, (rootFrame 1).base ≤ j → j < (rootFrame 1).base + (rootFrame 1).len →
      RegKept j small { small with regs := [(0, 7), (1, 99)] }) ∧
    gives (exec (.increment 0) small) (fun _ => true) = true := by
  refine ⟨by decide, by decide, fun j _ h => ?_, by decide⟩
  have : j = 0 := by simp only [rootFrame] at h; omega
  subst this
  exact ⟨by decide, by decide⟩
theorem witness_IncrementsAndDecrementsCompose : inCallee.frames = callee :: [rootFrame 2] ∧
    (2 : Word).toNat < callee.len := by decide
/-- A need of exactly `cap`; a need of `cap + 1`, and a capacity that is exactly MAX_REGS (V-C5, V-C6, V-C8). -/
theorem witness_CallCreatesFrame : small.frames = rootFrame 1 :: [] ∧ 1 ≤ (255 : Word).toNat ∧
    (0 : Word).toNat < (rootFrame 1).len ∧ small.inUse + (255 : Word).toNat ≤ small.cap ∧
    small.capFor (small.inUse + (256 : Word).toNat) ≤ small.params.maxRegs ∧
    small.capFor (small.inUse + (65535 : Word).toNat) = small.params.maxRegs ∧
    small.sp ≠ small.params.maxFrames ∧
    gives (exec (.call 2 256 0) small) (fun t => t.cap == 512) = true := by decide
theorem witness_CallOperandFaultsComeFirst : small.frames = rootFrame 1 :: [] ∧ (0 : Word).toNat = 0 ∧
    (1 : Word).toNat ≠ 0 ∧ (rootFrame 1).len ≤ (1 : Word).toNat := by decide
theorem witness_DestinationResolvedAtTheCall : inCallee.frames = callee :: [rootFrame 2] ∧ (1 : Word).toNat ≠ 0 ∧
    callee.len ≤ (3 : Word).toNat ∧ (2 : Word).toNat < callee.len ∧
    gives (exec (.call 0 1 2) inCallee) (fun t => t.frames ==
      { link := some 1, resumePc := 1, base := 5, len := 1, dest := 4 } :: inCallee.frames) = true := by decide
/-- V-C8 completes, V-C7 fails by growth, V-C9 by the frame slots; V-G1 and V-G2 for the start. -/
theorem witness_ExhaustionCauses : small.status = .run ∧ small.frames = rootFrame 1 :: [] ∧
    (65536 : Word).toNat ≠ 0 ∧ (0 : Word).toNat < (rootFrame 1).len ∧
    (small.cap < small.inUse + (65536 : Word).toNat ∧
      small.params.maxRegs < small.capFor (small.inUse + (65536 : Word).toNat)) ∧
    ({ small with params := { small.params with maxFrames := 1 } }).sp = 1 ∧
    (State.reset.status = .idle ∧ State.reset.cap < (65537 : Word).toNat ∧
      State.reset.params.maxRegs < State.reset.capFor (65537 : Word).toNat) ∧
    (out (exec .ret small)).status = .done := by decide
/-- A call that does not grow, one that does, and one that grows and then finds no frame slot. -/
theorem witness_CallFrame : gives (exec (.call 2 1 0) small) (fun t => t.cap == 256) = true ∧
    gives (exec (.call 2 256 0) small) (fun t => t.cap == 512 && t.status == .run) = true ∧
    gives (exec (.call 2 256 0) oneSlot) (fun t => t.cap == 512 && t.status == .failed) = true := by decide
/-- The target is the first address past the end. -/
theorem witness_CallPastTheEndFaultsAtItsFetch :
    (running [.call 1 1 0] [(0, 1)] 1).Inv ∧
    (running [.call 1 1 0] [(0, 1)] 1).fetched = some (.call 1 1 0) ∧
    gives (step (running [.call 1 1 0] [(0, 1)] 1)) (fun t => t.status == .run) = true ∧
    (running [.call 1 1 0] [(0, 1)] 1).imem.length ≤ (1 : Word).toNat :=
  ⟨by constructor <;> decide, by decide⟩
theorem witness_ReturnDeliversToCaller : inCallee.frames = callee :: [rootFrame 2] ∧ callee.link = some 0 ∧
    1 ≤ callee.len ∧ inCallee.Inv := ⟨by decide, by decide, by decide, inCallee_inv⟩
theorem witness_RootReturnEndsTheRun : small.frames = rootFrame 1 :: [] ∧ (rootFrame 1).link = none ∧
    1 ≤ (rootFrame 1).len ∧ small.Inv := ⟨by decide, by decide, by decide, small_inv⟩
theorem witness_ReturnFrame : inCallee.frames = callee :: [rootFrame 2] ∧
    gives (exec .ret inCallee) (fun _ => true) = true := by decide
/-- A need of `cap`; of `cap + 1`, below and above MAX_REGS. -/
theorem witness_GrowthTakesTheLeastIncrements : small.params.Ok ∧ 256 ≤ small.cap ∧ small.cap < 257 ∧
    small.cap + 1 * small.params.growInc ≤ small.params.maxRegs ∧
    (State.afterInit { growInc := 4, maxRegs := 5, maxFrames := 1 } 0 [] 4).params.Ok ∧ 5 < 4 + 1 * 4 := by decide
theorem witness_GrowthPreservesRegistersAndFrames : (small.grow 257).isSome = true ∧ 255 < small.cap ∧
    small.cap ≤ 256 ∧ 256 < small.capFor 257 := by decide
theorem witness_CapacityAndRecordsNeverShrink : gives (step small) (fun _ => true) = true ∧ 1 < small.cap ∧
    small.written 1 = true ∧ gives (start 0 1 State.reset) (fun _ => true) = true ∧
    gives (start 0 1 { State.reset with regs := [(1, 1)] }) (fun _ => true) = true := by decide
theorem witness_FaultsArePrecise : (rooted [] 1).status = .run ∧
    gives (step (rooted [] 1)) (fun t => t.status == .fault) = true := by decide
/-- One faulting step for each code. -/
theorem witness_FaultCodesNameTheirCauses :
    gives (step (running [] [] 1)) (fun t => t.status == .fault && t.faultCode == .fetchRange) = true ∧
    gives (step { running [] [] 1 with imem := [8] })
      (fun t => t.status == .fault && t.faultCode == .illegalInstruction) = true ∧
    gives (step (running [.move 0 256] [] 1)) (fun t => t.status == .fault && t.faultCode == .absRange) = true ∧
    gives (step (running [.add 0 1] [(0, 1)] 1)) (fun t => t.status == .fault && t.faultCode == .relRange) = true ∧
    gives (step (running [.call 0 0 5] [] 1)) (fun t => t.status == .fault && t.faultCode == .zeroFrame) = true ∧
    gives (step (running [.call 0 1 1] [] 1)) (fun t => t.status == .fault && t.faultCode == .destRange) = true := by
  decide
/-- By the growth, by the frame slots after a growth, and at a start. -/
theorem witness_ExhaustionUnwindsEveryFrame :
    gives (step (running [.call 0 65536 0] [] 1)) (fun t => t.status == .failed) = true ∧
    gives (step { oneSlot with imem := [encode (.call 2 256 0)] })
      (fun t => t.status == .failed && t.cap == 512) = true ∧
    gives (start 0 65537 State.reset) (fun t => t.status == .failed) = true := by decide
theorem witness_OnlyTheRootReturnSucceeds : (running [.ret] [(0, 9)] 1).Inv ∧
    (running [.ret] [(0, 9)] 1).status = .run ∧
    gives (step (running [.ret] [(0, 9)] 1)) (fun t => t.status == .done) = true :=
  ⟨by constructor <;> decide, by decide⟩
theorem witness_OnlyCallAndReturnMoveFrames : Instr.add 0 0 ≠ .ret ∧ (∀ p n d, Instr.add 0 0 ≠ .call p n d) ∧
    gives (exec (.add 0 0) small) (fun _ => true) = true :=
  ⟨by decide, fun _ _ _ h => Instr.noConfusion h, by decide⟩
/-- A sequential instruction, a call, a return, a root return, and faults of an operand and of an illegal word. -/
theorem witness_ProgramCounterUpdate :
    ((running [.increment 0] [(0, 9)] 1).Inv ∧ (running [.increment 0] [(0, 9)] 1).fetched = some (.increment 0) ∧
      gives (step (running [.increment 0] [(0, 9)] 1)) (fun t => t.status == .run) = true) ∧
    (small.Inv ∧ small.fetched = some (.call 2 1 0) ∧ gives (step small) (fun t => t.status == .run) = true) ∧
    (inCallee.Inv ∧ inCallee.fetched = some .ret ∧ gives (step inCallee) (fun t => t.status == .run) = true) ∧
    gives (step (running [.ret] [(0, 9)] 1)) (fun t => t.status == .done) = true ∧
    gives (step (running [.increment 1] [(0, 9)] 1)) (fun t => t.status == .fault) = true ∧
    gives (step { running [] [] 1 with imem := [8] }) (fun t => t.status == .fault) = true :=
  ⟨⟨by constructor <;> decide, by decide⟩, ⟨small_inv, by decide⟩, ⟨inCallee_inv, by decide⟩, by decide⟩
theorem witness_InitResetsEverything : small.params.Ok ∧ ([0] : List IWord).length < 2 ^ 64 ∧
    65536 ≤ small.params.maxRegs := by decide
/-- The growth fails at 65537 and succeeds at 65536. -/
theorem witness_StartGrowsTheRegisterFile : State.reset.status = .idle ∧
    State.reset.grow (65537 : Word).toNat = none ∧ (State.reset.grow (65536 : Word).toNat).isSome = true ∧
    (out (exec .ret small)).status = .done := by decide
theorem witness_StartEntersTheRootFrame : State.reset.status = .idle ∧ (256 : Word).toNat ≤ State.reset.cap ∧
    State.reset.capFor (65536 : Word).toNat ≤ State.reset.params.maxRegs ∧
    State.reset.imem.length ≤ (0 : Word).toNat ∧ (0 : Word).toNat = 0 := by decide
theorem witness_StatePersistsAcrossRuns :
    gives (step (running [.ret] [(0, 9)] 1)) (fun t => t.status == .done &&
      gives (start 0 1 t) fun u => u.status == .run) = true := by decide
theorem witness_StepKeepsInvariant : small.Inv ∧ inCallee.Inv ∧ State.reset.Inv :=
  ⟨small_inv, inCallee_inv, by constructor <;> decide⟩
theorem witness_InitAndStartKeepInvariant : gives (init [0] 256 small) (fun _ => true) = true ∧
    State.reset.Inv ∧ gives (start 0 1 State.reset) (fun _ => true) = true :=
  ⟨by decide, by constructor <;> decide, by decide⟩
theorem witness_RunningFrameStackShape : inCallee.Inv ∧ inCallee.status = .run ∧
    inCallee.frames.reverse[0]? = some (rootFrame 2) ∧ inCallee.frames.reverse[1]? = some callee :=
  ⟨inCallee_inv, by decide⟩
theorem witness_RegisterFileIsCanonical : Memory.wf [(0, 7), (3, 8)] = true ∧
    ∀ i, RegFile.lookup [(0, 7), (3, 8)] i = RegFile.lookup [(0, 7), (3, 8)] i := ⟨by decide, fun _ => rfl⟩
theorem witness_ProgramAndParametersAreFixed : gives (step small) (fun _ => true) = true ∧
    gives (start 0 1 State.reset) (fun _ => true) = true := by decide
theorem witness_ControlNeverDependsOnRegisterValues :
    SameButValues small { small with regs := [(0, 1)], result := 5, initCount := 3 } := rfl
theorem witness_EveryRunEnds : State.reset.Inv ∧
    gives (start 0 1 State.reset) (fun t => t.status == .run) = true :=
  ⟨by constructor <;> decide, by decide⟩
/-- `j = 0`, by `move_immediate` and by `move`, into the window a call of one register creates. -/
theorem witness_PremovedWordIsCalleeRegister : small.status = .run ∧ (1 : Word).toNat = small.inUse + (0 : Word).toNat ∧
    (0 : Word).toNat < (1 : Word).toNat ∧ (1 : Word).toNat < small.cap ∧
    gives (exec (.moveImmediate 1 5) small)
      (fun t => gives (exec (.call 2 1 0) t) fun u => u.status == .run) = true ∧
    (0 : Word).toNat < small.cap ∧
    gives (exec (.move 1 0) small) (fun t => gives (exec (.call 2 1 0) t) fun u => u.status == .run) = true := by
  decide
theorem witness_CallWithParameterYieldsTheSum : small.Inv ∧ small.frames = rootFrame 1 :: [] ∧
    (1 : Word).toNat = small.inUse ∧ (1 : Word).toNat < small.cap ∧ 1 ≤ (255 : Word).toNat ∧
    (0 : Word).toNat < (rootFrame 1).len ∧ small.inUse + (255 : Word).toNat ≤ small.cap ∧
    small.capFor (small.inUse + (256 : Word).toNat) ≤ small.params.maxRegs ∧ small.sp ≠ small.params.maxFrames :=
  ⟨small_inv, by decide⟩
theorem witness_ReturnOverwritesTheCalleesWrite : inCallee.Inv ∧
    inCallee.frames = callee :: rootFrame 2 :: [] ∧ (1 : Word).toNat = callee.dest ∧
    (255 : Word).toNat < inCallee.cap := ⟨inCallee_inv, by decide⟩
theorem witness_OnlyUnwrittenReadsSeeTheFreeValue :
    stepReadsUnwritten (running [.increment 0] [(0, 9)] 1) = false ∧
    gives (step (running [.increment 0] [(0, 9)] 1)) (fun _ => true) = true := by decide
/-- The shortest callee: its first instruction is the `return`. -/
theorem witness_CalleeReturnsBehindItsCall : small.Inv ∧ small.frames.head? = some (rootFrame 1) ∧
    small.fetched = some (.call 2 1 0) ∧ step small = .next called ∧ called.status = .run ∧
    (∀ j, j ≤ 0 → ∃ w, runFor j called = .next w ∧ w.status = .run ∧ small.sp < w.sp) ∧
    runFor 0 called = .next called ∧ step called = .next (out (step called)) ∧
    (out (step called)).status = .run ∧ (out (step called)).sp ≤ small.sp := by
  refine ⟨small_inv, by decide, by decide, next_out (by decide), by decide, fun j hj => ?_, rfl,
    next_out (by decide), by decide, by decide⟩
  obtain rfl : j = 0 := by omega
  exact ⟨called, rfl, by decide, by decide⟩

end Sys2Proof.Tests
end

section
/-! SUPPORT. What the execution of an instruction can make of a state, in one list, and that a state with a live
frame never stops. -/

namespace Sys2Proof.Machine

variable {s t : State}

/-- Everything that an executed instruction can make of `s`: the faults, the write of one register, the exhaustions
and the new frame of `call`, the two ends of `return`. -/
inductive Effect (s : State) : State → Prop where
  | fault (c : FaultCode) (hc : c ≠ .none) : Effect s (s.faulted c)
  | write (a : Nat) (v : Word) (ha : s.Inv → a < s.cap) : Effect s (s.writeReg a v).advance
  | exhausted : Effect s s.exhausted
  | grownExhausted (g : State) (need : Nat) (hg : s.grow need = some g) : Effect s g.exhausted
  | enter (g : State) (cur : Frame) (rest : List Frame) (p n d : Word) (hf : s.frames = cur :: rest)
      (hn : n.toNat ≠ 0) (hd : d.toNat < cur.len) (hg : s.grow (s.inUse + n.toNat) = some g)
      (hsp : g.sp ≠ g.params.maxFrames) :
      Effect s (g.enterFrame { link := some (s.sp - 1), resumePc := s.pc + 1, base := s.inUse, len := n.toNat,
                               dest := cur.base + d.toNat } p)
  | finish (v : Word) : Effect s (s.finished v)
  | leave (cur : Frame) (rest : List Frame) (k : Nat) (v : Word) (hf : s.frames = cur :: rest)
      (hk : cur.link = some k) : Effect s ((s.writeReg cur.dest v).leaveFrame cur)

/-- The current window lies below the capacity (R53). -/
theorem State.Inv.window_lt_cap (hi : s.Inv) {cur : Frame} {rest : List Frame} (hf : s.frames = cur :: rest)
    {j : Nat} (hj : j < cur.len) : cur.base + j < s.cap := by
  have h1 := hi.inUse_eq cur (by simp [hf])
  have h2 := hi.inUse_le
  omega

theorem execMove_effect {d src : Word} (h : execMove d src s = .next t) : Effect s t := by
  rcases execMove_cases h with ⟨-, rfl⟩ | ⟨hd, -, rfl⟩
  · exact .fault _ (by decide)
  · exact .write _ _ fun _ => hd

theorem execMoveImmediate_effect {d v : Word} (h : execMoveImmediate d v s = .next t) : Effect s t := by
  rcases execMoveImmediate_cases h with ⟨-, rfl⟩ | ⟨hd, rfl⟩
  · exact .fault _ (by decide)
  · exact .write _ _ fun _ => hd

theorem execAdd_effect {d src : Word} (h : execAdd d src s = .next t) : Effect s t := by
  obtain ⟨cur, rest, hf, ⟨-, rfl⟩ | ⟨hd, -, rfl⟩⟩ := execAdd_cases h
  · exact .fault _ (by decide)
  · exact .write _ _ fun hi => hi.window_lt_cap hf hd

theorem aluInPlace_effect {r : Word} {f : Word → Word} (h : aluInPlace r f s = .next t) : Effect s t := by
  obtain ⟨cur, rest, hf, ⟨-, rfl⟩ | ⟨hr, rfl⟩⟩ := aluInPlace_cases h
  · exact .fault _ (by decide)
  · exact .write _ _ fun hi => hi.window_lt_cap hf hr

theorem execCall_effect {p n d : Word} (h : execCall p n d s = .next t) : Effect s t := by
  rcases execCall_cases h with ⟨-, rfl⟩ | ⟨cur, rest, hf, hn, h⟩
  · exact .fault _ (by decide)
  · rcases h with ⟨-, rfl⟩ | ⟨-, -, rfl⟩ | ⟨g, hd, hg, ⟨-, rfl⟩ | ⟨hsp, rfl⟩⟩
    · exact .fault _ (by decide)
    · exact .exhausted
    · exact .grownExhausted g _ hg
    · exact .enter g cur rest p n d hf hn hd hg hsp

theorem execReturn_effect (h : execReturn s = .next t) : Effect s t := by
  obtain ⟨cur, rest, hf, ⟨-, rfl⟩ | ⟨-, -, rfl⟩ | ⟨-, ⟨k, hk⟩, rfl⟩⟩ := execReturn_cases h
  · exact .fault _ (by decide)
  · exact .finish _
  · exact .leave cur rest k _ hf hk

/-- The three in-place ALU instructions, by the operation they share (R120). -/
theorem exec_addImmediate (d v : Word) (s : State) :
    exec (.addImmediate d v) s = aluInPlace d (fun a => addW a v) s := rfl

theorem exec_increment (r : Word) (s : State) : exec (.increment r) s = aluInPlace r (fun a => addW a 1#64) s := rfl

theorem exec_decrement (r : Word) (s : State) : exec (.decrement r) s = aluInPlace r (fun a => subW a 1#64) s := rfl

theorem exec_effect {i : Instr} (h : exec i s = .next t) : Effect s t := by
  cases i with
  | ret => exact execReturn_effect h
  | call p n d => exact execCall_effect h
  | move d src => exact execMove_effect h
  | moveImmediate d v => exact execMoveImmediate_effect h
  | add d src => exact execAdd_effect h
  | addImmediate d v => exact aluInPlace_effect (exec_addImmediate d v s ▸ h)
  | increment r => exact aluInPlace_effect (exec_increment r s ▸ h)
  | decrement r => exact aluInPlace_effect (exec_decrement r s ▸ h)

/-! ## What a growth keeps (R59) -/

section

variable {g : State} {need : Nat} (hg : s.grow need = some g)
include hg

theorem State.grow_params : g.params = s.params := by rw [(grow_frame hg).1]
theorem State.grow_imem : g.imem = s.imem := by rw [(grow_frame hg).1]
theorem State.grow_frames : g.frames = s.frames := by rw [(grow_frame hg).1]
theorem State.grow_inUse : g.inUse = s.inUse := by rw [(grow_frame hg).1]
theorem State.grow_status : g.status = s.status := by rw [(grow_frame hg).1]
theorem State.grow_initCount : g.initCount = s.initCount := by rw [(grow_frame hg).1]

end

/-- A step of a running core has an instruction's effect too when its fetch or its decoding faults. -/
theorem step_effect (hr : s.status = .run) (h : step s = .next t) : Effect s t := by
  rcases step_next_cases hr h with rfl | rfl | ⟨i, -, h⟩
  · exact .fault _ (by decide)
  · exact .fault _ (by decide)
  · exact exec_effect h

/-- Outside RUN nothing changes (R84, R209). -/
theorem eq_of_step_of_not_run (hr : s.status ≠ .run) (h : step s = .next t) : t = s := by
  rw [step_of_not_run hr] at h
  exact (Host.Outcome.next.inj h).symm

/-! ## Progress -/

theorem withAddr_progress {a : Except FaultCode Nat} {k : Nat → Out} (hk : ∀ i, ∃ t, k i = .next t) :
    ∃ t, withAddr s a k = .next t := by
  cases a with
  | ok i => exact hk i
  | error c => exact ⟨_, rfl⟩

theorem withCur_progress {k : Frame → Out} (hf : s.frames ≠ []) (hk : ∀ cur, ∃ t, k cur = .next t) :
    ∃ t, withCur s k = .next t := by
  obtain ⟨cur, rest, hf⟩ := List.exists_cons_of_ne_nil hf
  exact withCur_cons hf k ▸ hk cur

theorem aluInPlace_progress (r : Word) (f : Word → Word) (hf : s.frames ≠ []) :
    ∃ t, aluInPlace r f s = .next t :=
  withCur_progress hf fun _ => withAddr_progress fun _ => ⟨_, rfl⟩

theorem execCall_progress (p n d : Word) (hf : s.frames ≠ []) : ∃ t, execCall p n d s = .next t := by
  unfold execCall
  split
  · exact ⟨_, rfl⟩
  · refine withCur_progress hf fun cur => withAddr_progress fun dabs => ?_
    split
    · exact ⟨_, rfl⟩
    · split <;> exact ⟨_, rfl⟩

theorem execReturn_progress (hf : s.frames ≠ []) : ∃ t, execReturn s = .next t := by
  refine withCur_progress hf fun cur => withAddr_progress fun i0 => ?_
  split <;> exact ⟨_, rfl⟩

/-- With a live frame, every instruction answers a next state: no stop and no refusal. -/
theorem exec_progress (i : Instr) (hf : s.frames ≠ []) : ∃ t, exec i s = .next t := by
  cases i with
  | ret => exact execReturn_progress hf
  | call p n d => exact execCall_progress p n d hf
  | move d src => exact withAddr_progress fun _ => withAddr_progress fun _ => ⟨_, rfl⟩
  | moveImmediate d v => exact withAddr_progress fun _ => ⟨_, rfl⟩
  | add d src => exact withCur_progress hf fun _ => withAddr_progress fun _ => withAddr_progress fun _ => ⟨_, rfl⟩
  | addImmediate d v => exact exec_addImmediate d v s ▸ aluInPlace_progress d _ hf
  | increment r => exact exec_increment r s ▸ aluInPlace_progress r _ hf
  | decrement r => exact exec_decrement r s ▸ aluInPlace_progress r _ hf

/-- A step of a core whose frames are live while it runs answers a next state. -/
theorem step_progress (hf : s.status = .run → s.frames ≠ []) : ∃ t, step s = .next t := by
  by_cases hr : s.status = .run
  · rcases step_of_run hr with ⟨-, h⟩ | ⟨w, -, ⟨-, -, h⟩ | ⟨i, -, h⟩⟩
    · exact ⟨_, h⟩
    · exact ⟨_, h⟩
    · exact h ▸ exec_progress i (hf hr)
  · exact ⟨s, step_of_not_run hr⟩

end Sys2Proof.Machine
end

section
/-! SUPPORT. The frame-stack part of the invariant, case by case and on the slots `FS[0 .. sp-1]`, root first. -/

namespace Sys2Proof.Machine

theorem framesOk_singleton {n : Nat} {root : Frame} : framesOk n [root] = true ↔ root = rootFrame root.len := by
  simp [framesOk, rootFrame]

theorem framesOk_cons_cons {n : Nat} {f p : Frame} {rest : List Frame} :
    framesOk n (f :: p :: rest) = true ↔
      f.link = some rest.length ∧ f.base = p.base + p.len ∧ 1 ≤ f.len ∧ p.base ≤ f.dest ∧ f.dest < f.base ∧
        f.resumePc.toNat ≤ n ∧ framesOk n (p :: rest) = true := by
  simp [framesOk, and_assoc]

/-- R26: slot 0 holds a root frame. -/
theorem root_of_framesOk {n : Nat} {root : Frame} :
    ∀ {fs : List Frame}, framesOk n fs = true → fs.reverse[0]? = some root → root = rootFrame root.len
  | [], _, h0 => by simp at h0
  | [f], h, h0 => by
    obtain rfl : f = root := by simpa using h0
    exact framesOk_singleton.1 h
  | f :: p :: rest, h, h0 => by
    obtain ⟨-, -, -, -, -, -, hp⟩ := framesOk_cons_cons.1 h
    refine root_of_framesOk hp ?_
    rwa [List.reverse_cons, List.getElem?_append_left (by simp)] at h0

/-- R25, R27 (3), (6): the frame in slot `k + 1` and its caller, the one in slot `k`. -/
theorem callee_of_framesOk {n k : Nat} {f p : Frame} :
    ∀ {fs : List Frame}, framesOk n fs = true → fs.reverse[k + 1]? = some f → fs.reverse[k]? = some p →
      f.base = p.base + p.len ∧ 1 ≤ f.len ∧ p.base ≤ f.dest ∧ f.dest < f.base ∧ f.link = some k
  | [], _, hf, _ => by simp at hf
  | [_], _, hf, _ => by simp at hf
  | f0 :: p0 :: rest, h, hf, hp => by
    obtain ⟨hlink, hbase, hlen, hlo, hhi, -, hrest⟩ := framesOk_cons_cons.1 h
    rw [List.reverse_cons] at hf hp
    have hk : k + 1 < (p0 :: rest).reverse.length ∨ k = rest.length := by
      have := (List.getElem?_eq_some_iff.1 hf).1
      simp at this ⊢
      omega
    rcases hk with hk | rfl
    · rw [List.getElem?_append_left hk] at hf
      rw [List.getElem?_append_left (by omega)] at hp
      exact callee_of_framesOk hrest hf hp
    · obtain rfl : f0 = f := by simpa using hf
      obtain rfl : p0 = p := by simpa using hp
      exact ⟨hbase, hlen, hlo, hhi, hlink⟩

/-- R27 (4): the windows of the live frames lie without gaps from 0 to the end of the current one. -/
theorem sum_len_of_framesOk {n : Nat} :
    ∀ {cur : Frame} {rest : List Frame}, framesOk n (cur :: rest) = true →
      ((cur :: rest).map Frame.len).sum = cur.base + cur.len
  | cur, [], h => by
    rw [framesOk_singleton.1 h]
    simp [rootFrame]
  | cur, p :: rest, h => by
    obtain ⟨-, hbase, -, -, -, -, hp⟩ := framesOk_cons_cons.1 h
    rw [List.map_cons, List.sum_cons, sum_len_of_framesOk hp, hbase]
    omega

end Sys2Proof.Machine
end

section
/-! SUPPORT. Which operations keep the invariant, one lemma per operation, and from them every effect of an
instruction. -/

namespace Sys2Proof.Machine

variable {s g t : State}

theorem State.inv_afterInit {params : Params} {program : List IWord} {initCap : Nat} (initCount : Nat)
    (hp : params.Ok) (hn : program.length < 2 ^ 64) (hc : initCap ≤ params.maxRegs) :
    (State.afterInit params initCount program initCap).Inv where
  params_ok := hp
  imem_lt := hn
  cap_le := hc
  regs_wf := rfl
  regs_lt := by simp [afterInit]
  inUse_le := Nat.zero_le _
  sp_le := Nat.zero_le _
  frames_ok := rfl
  inUse_eq := by simp [afterInit]
  live := by simp [afterInit]
  err_iff := by simp [afterInit]
  fault_iff := by simp [afterInit]

theorem State.Inv.advance (hi : s.Inv) : s.advance.Inv := { hi with }

theorem State.Inv.writeReg (hi : s.Inv) {a : Nat} (v : Word) (ha : a < s.cap) : (s.writeReg a v).Inv :=
  { hi with
    regs_wf := RegFile.wf_store a v hi.regs_wf
    regs_lt := fun e he => by
      rcases RegFile.mem_store he with rfl | he
      · exact ha
      · exact hi.regs_lt e he }

theorem State.Inv.faulted (hi : s.Inv) (hr : s.status = .run) {c : FaultCode} (hc : c ≠ .none) :
    (s.faulted c).Inv :=
  { hi with
    live := by simpa [hr] using hi.live
    err_iff := by simpa [hr] using hi.err_iff
    fault_iff := by simpa using hc }

/-- Exhaustion destroys every frame, so that nothing is left to say of them. -/
theorem State.Inv.exhausted (hi : s.Inv) (hs : s.status ≠ .fault) : s.exhausted.Inv :=
  { hi with
    sp_le := Nat.zero_le _
    frames_ok := rfl
    inUse_eq := by simp
    live := by simp
    err_iff := by simp
    fault_iff := by simpa [hs] using hi.fault_iff }

theorem State.Inv.finished (hi : s.Inv) (hr : s.status = .run) (v : Word) : (s.finished v).Inv :=
  { hi with
    sp_le := Nat.zero_le _
    frames_ok := rfl
    inUse_eq := by simp
    live := by simp
    err_iff := by simpa [hr] using hi.err_iff
    fault_iff := by simpa [hr] using hi.fault_iff }

/-- With a positive GROW_INC, the new capacity reaches the need (R58). -/
theorem State.le_capFor (hp : s.params.Ok) (need : Nat) : need ≤ s.capFor need := by
  unfold capFor
  split
  · assumption
  · obtain ⟨hinc, -, -⟩ := hp
    have := Nat.lt_div_mul_add (a := need - s.cap + s.params.growInc - 1) hinc
    omega

theorem State.Inv.growTo (hi : s.Inv) {c : Nat} (hlo : s.cap ≤ c) (hhi : c ≤ s.params.maxRegs) :
    (s.growTo c).Inv :=
  { hi with
    cap_le := hhi
    regs_wf := RegFile.wf_unwriteFrom _ hi.regs_wf
    regs_lt := fun _ he => Nat.lt_of_lt_of_le (RegFile.mem_unwriteFrom he).2 hlo
    inUse_le := Nat.le_trans hi.inUse_le hlo }

theorem State.Inv.grow (hi : s.Inv) {need : Nat} (hg : s.grow need = some g) : g.Inv := by
  rcases grow_eq_some.1 hg with ⟨-, rfl⟩ | ⟨-, hmax, rfl⟩
  · exact hi
  · exact hi.growTo (s.cap_le_capFor need) hmax

theorem State.le_cap_of_grow (hp : s.params.Ok) {need : Nat} (hg : s.grow need = some g) : need ≤ g.cap := by
  obtain ⟨-, hcap, -⟩ := grow_frame hg
  exact hcap ▸ le_capFor hp need

/-- A frame above the current one that names it, has a window of at least one register and delivers into the caller's
window keeps the invariant, if a slot and the registers are there (R151). -/
theorem State.Inv.enterFrame (hi : s.Inv) {cur f : Frame} {rest : List Frame} (hf : s.frames = cur :: rest)
    (hlink : f.link = some rest.length) (hbase : f.base = s.inUse) (hlen : 1 ≤ f.len) (hlo : cur.base ≤ f.dest)
    (hhi : f.dest < s.inUse) (hpc : f.resumePc.toNat ≤ s.imem.length) (hcap : s.inUse + f.len ≤ s.cap)
    (hsp : s.sp ≠ s.params.maxFrames) (p : Word) : (s.enterFrame f p).Inv := by
  have huse := hi.inUse_eq cur (by simp [hf])
  have hok := hi.frames_ok
  rw [hf] at hok
  exact
  { hi with
    inUse_le := hcap
    sp_le := Nat.lt_of_le_of_ne hi.sp_le hsp
    frames_ok := by
      rw [enterFrame_frames, enterFrame_imem, hf]
      exact framesOk_cons_cons.2 ⟨hlink, hbase.trans huse, hlen, hlo, hbase ▸ hhi, hpc, hok⟩
    inUse_eq := by simp [hbase]
    live := by simpa [hf] using hi.live }

/-- The current frame of a state with the invariant that has a calling frame, popped (R155). -/
theorem State.Inv.leaveFrame (hi : s.Inv) {cur : Frame} {rest : List Frame} {k : Nat}
    (hf : s.frames = cur :: rest) (hk : cur.link = some k) : (s.leaveFrame cur).Inv := by
  have huse := hi.inUse_eq cur (by simp [hf])
  rcases hi.cur_cases hf with ⟨-, hnone, -⟩ | ⟨p, r, rfl, -, hbase, -, -, -, -⟩
  · simp [hnone] at hk
  · have hok := hi.frames_ok
    rw [hf] at hok
    obtain ⟨-, -, -, -, -, -, hok⟩ := framesOk_cons_cons.1 hok
    exact
    { hi with
      inUse_le := Nat.le_trans (Nat.sub_le _ _) hi.inUse_le
      sp_le := Nat.le_trans (by simp [sp]) hi.sp_le
      frames_ok := by simpa [hf] using hok
      inUse_eq := by simp [hf]; omega
      live := by simpa [hf] using hi.live }

/-- A callee's destination is an existing register (R27 (6)). -/
theorem State.Inv.dest_lt_cap (hi : s.Inv) {cur : Frame} {rest : List Frame} {k : Nat}
    (hf : s.frames = cur :: rest) (hk : cur.link = some k) : cur.dest < s.cap := by
  have huse := hi.inUse_eq cur (by simp [hf])
  have hle := hi.inUse_le
  rcases hi.cur_cases hf with ⟨-, hnone, -⟩ | ⟨p, r, -, -, -, -, -, hhi, -⟩
  · simp [hnone] at hk
  · omega

/-- Behind an instruction that could be fetched, `pc + 1` is exact and at most `N` (R83). -/
theorem State.Inv.toNat_succ_pc (hi : s.Inv) (hpc : s.pc.toNat < s.imem.length) :
    (s.pc + 1).toNat = s.pc.toNat + 1 := by
  have := hi.imem_lt
  rw [BitVec.toNat_add, Nat.mod_eq_of_lt]
  · rfl
  · simp; omega

/-- Every effect of an instruction that the core could fetch keeps the invariant. -/
theorem Effect.inv (he : Effect s t) (hi : s.Inv) (hr : s.status = .run) (hpc : s.pc.toNat < s.imem.length) :
    t.Inv := by
  cases he with
  | fault c hc => exact hi.faulted hr hc
  | write a v ha => exact (hi.writeReg v (ha hi)).advance
  | exhausted => exact hi.exhausted (by simp [hr])
  | grownExhausted g need hg =>
    exact (hi.grow hg).exhausted (by simp [State.grow_status hg, hr])
  | enter g cur rest p n d hf hn hd hg hsp =>
    have hgf : g.frames = cur :: rest := State.grow_frames hg ▸ hf
    have hgu : g.inUse = s.inUse := State.grow_inUse hg
    have huse : s.inUse = cur.base + cur.len := hi.inUse_eq cur (by simp [hf])
    have hdest : cur.base + d.toNat < g.inUse := by omega
    have hresume : (s.pc + 1).toNat ≤ g.imem.length := by
      rw [hi.toNat_succ_pc hpc, State.grow_imem hg]
      exact hpc
    have hcap : g.inUse + n.toNat ≤ g.cap := hgu ▸ State.le_cap_of_grow hi.params_ok hg
    exact (hi.grow hg).enterFrame hgf (by simp [State.sp, hf]) hgu.symm (Nat.pos_of_ne_zero hn)
      (Nat.le_add_right _ _) hdest hresume hcap hsp p
  | finish v => exact hi.finished hr v
  | leave cur rest k v hf hk => exact (hi.writeReg v (hi.dest_lt_cap hf hk)).leaveFrame hf hk

theorem step_inv (hi : s.Inv) (h : step s = .next t) : t.Inv := by
  by_cases hr : s.status = .run
  · rcases step_next_cases hr h with rfl | rfl | ⟨i, hfetch, h⟩
    · exact hi.faulted hr (by decide)
    · exact hi.faulted hr (by decide)
    · obtain ⟨-, w, hw, -⟩ := State.fetched_eq_some.1 hfetch
      exact (exec_effect h).inv hi hr (State.lt_of_fetch hw)
  · exact eq_of_step_of_not_run hr h ▸ hi

/-! ## A start -/

theorem State.Inv.cleared (hi : s.Inv) (h1 : s.status ≠ .failed) (h2 : s.status ≠ .fault) : s.cleared.Inv :=
  { hi with
    err_iff := by simpa using h1
    fault_iff := by simpa using h2 }

theorem State.Inv.launched (hi : s.Inv) (h1 : s.status ≠ .failed) (h2 : s.status ≠ .fault) (e : Word) {n : Nat}
    (hn : n ≤ s.cap) : (s.launched e n).Inv :=
  { hi with
    inUse_le := hn
    sp_le := by
      obtain ⟨-, -, hslots⟩ := hi.params_ok
      exact hslots
    frames_ok := framesOk_singleton.2 rfl
    inUse_eq := by simp [rootFrame]
    live := by simp
    err_iff := by simpa [h1] using hi.err_iff
    fault_iff := by simpa [h2] using hi.fault_iff }

theorem start_inv {e r : Word} (hi : s.Inv) (h : start e r s = .next t) : t.Inv := by
  obtain ⟨hs, rfl⟩ := start_cases h
  have h1 : s.status ≠ .failed := by rcases hs with hs | hs <;> simp [hs]
  have h2 : s.status ≠ .fault := by rcases hs with hs | hs <;> simp [hs]
  rcases launch_cases s e r with ⟨-, h⟩ | ⟨g, hg, h⟩
  · exact h ▸ (hi.cleared h1 h2).exhausted h2
  · have hst : g.status = s.status := State.grow_status hg
    have hcap : r.toNat ≤ g.cap := State.le_cap_of_grow hi.params_ok hg
    exact h ▸ ((hi.grow hg).cleared (hst ▸ h1) (hst ▸ h2)).launched (hst ▸ h1) (hst ▸ h2) e hcap

end Sys2Proof.Machine
end

section
/-! SUPPORT. What steps and starts leave unchanged. -/

namespace Sys2Proof.Machine

variable {s t : State}

/-- No instruction changes the program, the parameters or the count of inits (R35, R64). -/
theorem Effect.fixed (he : Effect s t) : t.imem = s.imem ∧ t.params = s.params ∧ t.initCount = s.initCount := by
  cases he with
  | fault c hc => simp
  | write a v ha => simp
  | exhausted => simp
  | grownExhausted g need hg => simp [State.grow_imem hg, State.grow_params hg, State.grow_initCount hg]
  | enter g cur rest p n d hf hn hd hg hsp =>
    simp [State.grow_imem hg, State.grow_params hg, State.grow_initCount hg]
  | finish v => simp
  | leave cur rest k v hf hk => simp

/-- Only the root's return ends in DONE, and it changes `result`, the frames and `status` alone (R156). -/
theorem Effect.of_done (he : Effect s t) (hr : s.status = .run) (hd : t.status = .done) :
    ∃ v, t = s.finished v := by
  cases he with
  | fault c hc => simp at hd
  | write a v ha => simp [hr] at hd
  | exhausted => simp at hd
  | grownExhausted g need hg => simp at hd
  | enter g cur rest p n d hf hn hlt hg hsp => simp [State.grow_status hg, hr] at hd
  | finish v => exact ⟨v, rfl⟩
  | leave cur rest k v hf hk => simp [hr] at hd

/-- An accepted start sets only `pc`, the frames, `in_use` and the control state, and grows the register file
(R212 to R214). -/
theorem launch_frame (s : State) (e r : Word) :
    launch e r s = { s with regs := (launch e r s).regs, cap := (launch e r s).cap, pc := (launch e r s).pc,
                            frames := (launch e r s).frames, inUse := (launch e r s).inUse,
                            status := (launch e r s).status, err := (launch e r s).err,
                            faultCode := (launch e r s).faultCode } := by
  rcases launch_cases s e r with ⟨-, h⟩ | ⟨g, hg, h⟩
  · rw [h]
    rfl
  · rw [h, (State.grow_frame hg).1]
    rfl

/-- An accepted start keeps every register that existed and never lowers the capacity (R34, R60). -/
theorem launch_regKept (s : State) (e r : Word) :
    s.cap ≤ (launch e r s).cap ∧ ∀ j, j < s.cap → RegKept j s (launch e r s) := by
  rcases launch_cases s e r with ⟨-, h⟩ | ⟨g, hg, h⟩
  · rw [h]
    exact ⟨Nat.le_refl _, fun _ _ => ⟨rfl, rfl⟩⟩
  · rw [h]
    obtain ⟨-, hcap, hregs⟩ := State.grow_frame hg
    exact ⟨hcap ▸ s.cap_le_capFor _, hregs⟩

end Sys2Proof.Machine
end

section
/-! SUPPORT. The canonical register file lists exactly the registers it looks up. -/

namespace Sys2Proof.Machine

theorem RegFile.lookup_eq_some_iff_mem {r : RegFile} (h : Memory.wf r = true) {i : Nat} {v : Word} :
    r.lookup i = some v ↔ (i, v) ∈ r := by
  refine ⟨mem_of_lookup, fun hm => ?_⟩
  rw [Memory.wf_iff_pairwise] at h
  induction r with
  | nil => simp at hm
  | cons e r ih =>
    obtain ⟨j, w⟩ := e
    obtain ⟨hj, hr⟩ := List.pairwise_cons.1 h
    rw [lookup_cons]
    rcases List.mem_cons.1 hm with heq | hm
    · obtain ⟨rfl, rfl⟩ := Prod.mk.inj heq
      simp
    · rw [if_neg (Nat.ne_of_gt (hj _ hm)), ih hr hm]

/-- Two rising lists with the same entries are one list. -/
theorem RegFile.eq_of_mem_iff {a b : RegFile} (ha : Memory.wf a = true) (hb : Memory.wf b = true)
    (h : ∀ e, e ∈ a ↔ e ∈ b) : a = b := by
  rw [Memory.wf_iff_pairwise] at ha hb
  have ndA : a.Nodup := ha.imp fun hlt heq => Nat.ne_of_lt hlt (congrArg Prod.fst heq)
  have ndB : b.Nodup := hb.imp fun hlt heq => Nat.ne_of_lt hlt (congrArg Prod.fst heq)
  exact ((List.perm_ext_iff_of_nodup ndA ndB).2 h).eq_of_pairwise
    (fun _ _ _ _ hlt hgt => absurd hgt (Nat.lt_asymm hlt)) ha hb

end Sys2Proof.Machine
end

section
/-! SUPPORT. Another argument of the free value (log 1): what a state and an outcome become under it, and that an
instruction whose reads are all of written registers does the same. -/

namespace Sys2Proof.Machine

/-- The state with `n` as the argument of the free value. -/
def State.reindex (s : State) (n : Nat) : State := { s with initCount := n }

/-- The outcome with `n` as the argument of the free value in its next state. -/
def reindexOut (n : Nat) : Out → Out
  | .next t => .next (t.reindex n)
  | .fault r => .fault r
  | .refused r => .refused r

variable {s : State} {n : Nat}

@[simp] theorem State.reindex_status (s : State) (n : Nat) : (s.reindex n).status = s.status := rfl
@[simp] theorem State.reindex_inUse (s : State) (n : Nat) : (s.reindex n).inUse = s.inUse := rfl
@[simp] theorem State.reindex_fetch (s : State) (n : Nat) : (s.reindex n).fetch = s.fetch := rfl

theorem absAddr_reindex (s : State) (n : Nat) (i : Word) : absAddr (s.reindex n) i = absAddr s i := rfl

@[simp] theorem reindexOut_next (n : Nat) (t : State) : reindexOut n (.next t) = .next (t.reindex n) := rfl

theorem State.readReg_reindex {i : Nat} (h : s.written i = true) : (s.reindex n).readReg i = s.readReg i := by
  obtain ⟨v, hv⟩ := Option.isSome_iff_exists.1 h
  simp [readReg, reindex, hv]

theorem State.grow_reindex (s : State) (n need : Nat) :
    (s.reindex n).grow need = (s.grow need).map (·.reindex n) := by
  simp only [grow, apply_ite (Option.map _)]
  rfl

theorem withAddr_reindex {a : Except FaultCode Nat} {k k' : Nat → Out}
    (hk : ∀ i, a = .ok i → k' i = reindexOut n (k i)) :
    withAddr (s.reindex n) a k' = reindexOut n (withAddr s a k) := by
  cases a with
  | ok i => exact hk i rfl
  | error c => rfl

theorem withCur_reindex {k k' : Frame → Out}
    (hk : ∀ cur rest, s.frames = cur :: rest → k' cur = reindexOut n (k cur)) :
    withCur (s.reindex n) k' = reindexOut n (withCur s k) := by
  cases hf : s.frames with
  | nil => simp [withCur, State.reindex, hf, reindexOut]
  | cons cur rest =>
    rw [withCur_cons hf, withCur_cons (s := s.reindex n) hf]
    exact hk cur rest hf

theorem execMove_reindex {d src : Word} (hu : readsUnwritten (.move d src) s = false) :
    execMove d src (s.reindex n) = reindexOut n (execMove d src s) := by
  refine withAddr_reindex fun a ha => withAddr_reindex fun b hb => ?_
  rw [absAddr_reindex] at ha hb
  have hw : s.written b = true := by simpa [readsUnwritten, ha, hb] using hu
  rw [State.readReg_reindex hw]
  rfl

theorem execAdd_reindex {d src : Word} (hu : readsUnwritten (.add d src) s = false) :
    execAdd d src (s.reindex n) = reindexOut n (execAdd d src s) := by
  refine withCur_reindex fun cur rest hf => withAddr_reindex fun a ha => withAddr_reindex fun b hb => ?_
  obtain ⟨hwa, hwb⟩ : s.written a = true ∧ s.written b = true := by simpa [readsUnwritten, hf, ha, hb] using hu
  rw [State.readReg_reindex hwa, State.readReg_reindex hwb]
  rfl

/-- The in-place forms read one register, and R184's test is the same for the three. -/
theorem aluInPlace_reindex {r : Word} (f : Word → Word) (hu : readsUnwritten (.increment r) s = false) :
    aluInPlace r f (s.reindex n) = reindexOut n (aluInPlace r f s) := by
  refine withCur_reindex fun cur rest hf => withAddr_reindex fun a ha => ?_
  have hw : s.written a = true := by simpa [readsUnwritten, hf, ha] using hu
  rw [State.readReg_reindex hw]
  rfl

/-- `call` reads no register. -/
theorem execCall_reindex (p k d : Word) : execCall p k d (s.reindex n) = reindexOut n (execCall p k d s) := by
  unfold execCall
  split
  · rfl
  · refine withCur_reindex fun cur rest _ => withAddr_reindex fun dabs _ => ?_
    rw [State.reindex_inUse, State.grow_reindex]
    cases s.grow (s.inUse + k.toNat) with
    | none => rfl
    | some g =>
      simp only [Option.map_some, apply_ite (reindexOut n)]
      rfl

theorem execReturn_reindex (hu : readsUnwritten .ret s = false) :
    execReturn (s.reindex n) = reindexOut n (execReturn s) := by
  refine withCur_reindex fun cur rest hf => withAddr_reindex fun a ha => ?_
  have hw : s.written a = true := by simpa [readsUnwritten, hf, ha] using hu
  rw [State.readReg_reindex hw]
  cases cur.link <;> rfl

theorem exec_reindex {i : Instr} (hu : readsUnwritten i s = false) :
    exec i (s.reindex n) = reindexOut n (exec i s) := by
  cases i with
  | ret => exact execReturn_reindex hu
  | call p k d => exact execCall_reindex p k d
  | move d src => exact execMove_reindex hu
  | moveImmediate d v => exact withAddr_reindex fun _ _ => rfl
  | add d src => exact execAdd_reindex hu
  | addImmediate d v => exact aluInPlace_reindex (fun a => addW a v) hu
  | increment r => exact aluInPlace_reindex (fun a => addW a 1#64) hu
  | decrement r => exact aluInPlace_reindex (fun a => subW a 1#64) hu

/-- A step that meets no read of an unwritten register does the same with any argument of the free value. -/
theorem step_reindex (hu : stepReadsUnwritten s = false) : step (s.reindex n) = reindexOut n (step s) := by
  by_cases hr : s.status = .run
  · cases hf : s.fetch with
    | none =>
      simp only [step, State.reindex_status, State.reindex_fetch, hr, hf]
      rfl
    | some w =>
      cases hd : decodeWord w with
      | error e =>
        simp only [step, State.reindex_status, State.reindex_fetch, hr, hf, hd]
        rfl
      | ok i =>
        simp only [step, State.reindex_status, State.reindex_fetch, hr, hf, hd]
        exact exec_reindex (by simpa [stepReadsUnwritten, hr, hf, hd] using hu)
  · rw [step_of_not_run hr, step_of_not_run (s := s.reindex n) hr, reindexOut_next]

end Sys2Proof.Machine
end

section
/-! SUPPORT. Each code that the host reads stands for one status, error or fault, and no other code occurs. -/

namespace Sys2Proof.Machine

theorem Status.code_spec (x : Status) :
    (x.code.toNat = 0 ↔ x = .idle) ∧ (x.code.toNat = 1 ↔ x = .run) ∧ (x.code.toNat = 2 ↔ x = .done) ∧
      (x.code.toNat = 3 ↔ x = .failed) ∧ (x.code.toNat = 4 ↔ x = .fault) ∧ x.code.toNat ≤ 4 := by
  cases x <;> decide

theorem Err.code_spec (x : Err) : x.code.toNat = 1 ↔ x = .resourceExhausted := by
  cases x <;> decide

theorem FaultCode.code_spec (x : FaultCode) :
    (x.code.toNat = 1 ↔ x = .fetchRange) ∧ (x.code.toNat = 2 ↔ x = .illegalInstruction) ∧
      (x.code.toNat = 3 ↔ x = .absRange) ∧ (x.code.toNat = 4 ↔ x = .relRange) ∧
      (x.code.toNat = 5 ↔ x = .zeroFrame) ∧ (x.code.toNat = 6 ↔ x = .destRange) ∧ x.code.toNat ≤ 6 := by
  cases x <;> decide

end Sys2Proof.Machine
end

section
/-! Obligations of the architectural state (10_state.md). -/

namespace Sys2Proof.Machine

/-- Settles O49: with the invariant a running core has a live frame, so that no step stops, and every effect of an
instruction keeps the invariant. -/
theorem stepKeepsInvariant : Obligations.StepKeepsInvariant := by
  intro s hi
  obtain ⟨t, ht⟩ := step_progress fun hr => hi.live.2 (.inl hr)
  exact ⟨t, ht, step_inv hi ht⟩

/-- Settles O47: a step into DONE is the root's return, and a start sets what `launch_frame` lists. -/
theorem statePersistsAcrossRuns : Obligations.StatePersistsAcrossRuns := by
  intro s t u e r hr hst hd hstart
  obtain ⟨v, rfl⟩ := (step_effect hr hst).of_done hr hd
  obtain ⟨-, rfl⟩ := start_cases hstart
  obtain ⟨hcap, hregs⟩ := launch_regKept (s.finished v) e r
  exact ⟨rfl, hregs, hcap, launch_frame _ e r⟩

/-- Settles O50: `init` gives R33's values within R6's bounds, and a start enters a root frame or fails. -/
theorem initAndStartKeepInvariant : Obligations.InitAndStartKeepInvariant := by
  refine ⟨fun s t program initCap h => ?_, fun s t e r hi h => start_inv hi h⟩
  obtain ⟨hp, hn, hc, rfl⟩ := init_cases h
  exact State.inv_afterInit _ hp hn hc

/-- Settles O51, from the frame-stack part of the invariant read root first. -/
theorem runningFrameStackShape : Obligations.RunningFrameStackShape := by
  intro s hi hr
  obtain ⟨cur, rest, hf⟩ := List.exists_cons_of_ne_nil (hi.live.2 (.inl hr))
  have huse : s.inUse = cur.base + cur.len := hi.inUse_eq cur (by simp [hf])
  have hsum : (s.frames.map Frame.len).sum = cur.base + cur.len :=
    hf ▸ sum_len_of_framesOk (hf ▸ hi.frames_ok)
  refine ⟨by simp [State.sp, hf], fun root h0 => ?_, fun k f p h1 h2 => callee_of_framesOk hi.frames_ok h1 h2,
    hi.inUse_eq, huse.trans hsum.symm, hi.inUse_le, hi.cap_le⟩
  rw [root_of_framesOk hi.frames_ok h0]
  exact ⟨rfl, rfl⟩

/-- Settles O52: a canonical file lists exactly what it looks up. -/
theorem registerFileIsCanonical : Obligations.RegisterFileIsCanonical := by
  intro a b ha hb h
  refine RegFile.eq_of_mem_iff ha hb fun ⟨i, v⟩ => ?_
  rw [← RegFile.lookup_eq_some_iff_mem ha, ← RegFile.lookup_eq_some_iff_mem hb, h i]

/-- Settles O53: neither an instruction's effect nor an accepted start sets them. -/
theorem programAndParametersAreFixed : Obligations.ProgramAndParametersAreFixed := by
  refine ⟨fun s t h => ?_, fun s t e r h => ?_⟩
  · by_cases hr : s.status = .run
    · exact (step_effect hr h).fixed
    · exact eq_of_step_of_not_run hr h ▸ ⟨rfl, rfl, rfl⟩
  · obtain ⟨-, rfl⟩ := start_cases h
    rw [launch_frame]
    exact ⟨rfl, rfl, rfl⟩

/-- Settles O59: the step commutes with a change of the free value's argument. -/
theorem onlyUnwrittenReadsSeeTheFreeValue : Obligations.OnlyUnwrittenReadsSeeTheFreeValue := by
  intro s t n hu h
  calc step (s.reindex n) = reindexOut n (step s) := step_reindex hu
    _ = .next (t.reindex n) := by rw [h, reindexOut_next]

/-- Settles O41, from what each of the three codes is. -/
theorem hostReadsTheSpecCodes : Obligations.HostReadsTheSpecCodes := by
  intro s
  obtain ⟨hs0, hs1, hs2, hs3, hs4, hs⟩ := Status.code_spec s.status
  obtain ⟨hf1, hf2, hf3, hf4, hf5, hf6, hf⟩ := FaultCode.code_spec s.faultCode
  exact ⟨hs0, hs1, hs2, hs3, hs4, hs, Err.code_spec s.err, hf1, hf2, hf3, hf4, hf5, hf6, hf, rfl, rfl⟩

/-- Settles O42, each value as `State.afterInit` gives it. -/
theorem resetValues : Obligations.ResetValues :=
  ⟨rfl, rfl, rfl, rfl, rfl, rfl, rfl, rfl, fun _ => rfl⟩

/-- Settles O48: the state after reset is one after `init`, in R6's bounds. -/
theorem resetMeetsInvariant : Obligations.ResetMeetsInvariant :=
  State.inv_afterInit 0 (by decide) (by decide) (by decide)

end Sys2Proof.Machine
end

section
/-! SUPPORT. The data instructions as equations: what each answers with its operands in range, and which fault it
takes with one out of range (R52, R53, R55). -/

namespace Sys2Proof.Machine

variable {s : State} {cur : Frame} {rest : List Frame}

/-! ## The three paths of the addressing multiplexer -/

theorem withAddr_absAddr_of_lt {i : Word} (h : i.toNat < s.cap) (k : Nat → Out) :
    withAddr s (absAddr s i) k = k i.toNat := by
  rw [absAddr_ok_iff.2 ⟨h, rfl⟩, withAddr_ok]

theorem withAddr_absAddr_of_le {i : Word} (h : s.cap ≤ i.toNat) (k : Nat → Out) :
    withAddr s (absAddr s i) k = .next (s.faulted .absRange) := by
  rw [absAddr_error_iff.2 ⟨h, rfl⟩, withAddr_error]

theorem withAddr_relAddr_of_lt {r : Word} (h : r.toNat < cur.len) (k : Nat → Out) :
    withAddr s (relAddr cur r) k = k (cur.base + r.toNat) := by
  rw [relAddr_ok_iff.2 ⟨h, rfl⟩, withAddr_ok]

theorem withAddr_relAddr_of_le {r : Word} (h : cur.len ≤ r.toNat) (k : Nat → Out) :
    withAddr s (relAddr cur r) k = .next (s.faulted .relRange) := by
  rw [relAddr_error_iff.2 ⟨h, rfl⟩, withAddr_error]

theorem withAddr_destAddr_of_le {d : Word} (h : cur.len ≤ d.toNat) (k : Nat → Out) :
    withAddr s (destAddr cur d) k = .next (s.faulted .destRange) := by
  rw [destAddr_error_iff.2 ⟨h, rfl⟩, withAddr_error]

/-! ## One register written and `pc` advanced -/

/-- What every completing data instruction leaves: the register recorded as written, every other one kept, `pc + 1`,
and nothing else changed. -/
theorem writeReg_advance_frame (s : State) (a : Nat) (v : Word) :
    (s.writeReg a v).advance.written a = true ∧ OthersKept a s (s.writeReg a v).advance ∧
      (s.writeReg a v).advance.pc = s.pc + 1 ∧ OnlyRegsAndPc s (s.writeReg a v).advance :=
  ⟨s.written_writeReg_self a v,
    fun _ hj => ⟨s.readReg_writeReg_ne v hj, s.written_writeReg_ne v hj⟩, rfl, rfl⟩

/-! ## The absolute path (R101, R102) -/

theorem exec_move_of_lt {d src : Word} (hd : d.toNat < s.cap) (hs : src.toNat < s.cap) :
    exec (.move d src) s = .next (s.writeReg d.toNat (s.readReg src.toNat)).advance := by
  simp only [exec, execMove, withAddr_absAddr_of_lt hd, withAddr_absAddr_of_lt hs]

theorem exec_move_of_le {d src : Word} (h : s.cap ≤ d.toNat ∨ s.cap ≤ src.toNat) :
    exec (.move d src) s = .next (s.faulted .absRange) := by
  by_cases hd : d.toNat < s.cap
  · have hs : s.cap ≤ src.toNat := h.resolve_left (Nat.not_le.2 hd)
    simp only [exec, execMove, withAddr_absAddr_of_lt hd, withAddr_absAddr_of_le hs]
  · simp only [exec, execMove, withAddr_absAddr_of_le (Nat.not_lt.1 hd)]

theorem exec_moveImmediate_of_lt {d : Word} (hd : d.toNat < s.cap) (v : Word) :
    exec (.moveImmediate d v) s = .next (s.writeReg d.toNat v).advance :=
  withAddr_absAddr_of_lt hd _

theorem exec_moveImmediate_of_le {d : Word} (hd : s.cap ≤ d.toNat) (v : Word) :
    exec (.moveImmediate d v) s = .next (s.faulted .absRange) :=
  withAddr_absAddr_of_le hd _

/-! ## The frame-relative path (R121 to R124, R155) -/

section

variable (hf : s.frames = cur :: rest)
include hf

theorem exec_add_of_lt {d src : Word} (hd : d.toNat < cur.len) (hs : src.toNat < cur.len) :
    exec (.add d src) s = .next (s.writeReg (cur.base + d.toNat)
      (addW (s.readReg (cur.base + d.toNat)) (s.readReg (cur.base + src.toNat)))).advance := by
  simp only [exec, execAdd, withCur_cons hf, withAddr_relAddr_of_lt hd, withAddr_relAddr_of_lt hs]

theorem exec_add_of_le {d src : Word} (h : cur.len ≤ d.toNat ∨ cur.len ≤ src.toNat) :
    exec (.add d src) s = .next (s.faulted .relRange) := by
  by_cases hd : d.toNat < cur.len
  · have hs : cur.len ≤ src.toNat := h.resolve_left (Nat.not_le.2 hd)
    simp only [exec, execAdd, withCur_cons hf, withAddr_relAddr_of_lt hd, withAddr_relAddr_of_le hs]
  · simp only [exec, execAdd, withCur_cons hf, withAddr_relAddr_of_le (Nat.not_lt.1 hd)]

theorem aluInPlace_of_lt {r : Word} (hr : r.toNat < cur.len) (f : Word → Word) :
    aluInPlace r f s =
      .next (s.writeReg (cur.base + r.toNat) (f (s.readReg (cur.base + r.toNat)))).advance := by
  rw [aluInPlace, withCur_cons hf, withAddr_relAddr_of_lt hr]

theorem aluInPlace_of_le {r : Word} (hr : cur.len ≤ r.toNat) (f : Word → Word) :
    aluInPlace r f s = .next (s.faulted .relRange) := by
  rw [aluInPlace, withCur_cons hf, withAddr_relAddr_of_le hr]

/-- An in-place form completes on every index in the window and applies its function to the one register (R120). -/
theorem aluInPlace_completes {r : Word} (hr : r.toNat < cur.len) (f : Word → Word) :
    ∃ t, aluInPlace r f s = .next t ∧
      t.readReg (cur.base + r.toNat) = f (s.readReg (cur.base + r.toNat)) ∧
      t.written (cur.base + r.toNat) = true ∧ OthersKept (cur.base + r.toNat) s t ∧
      t.pc = s.pc + 1 ∧ OnlyRegsAndPc s t :=
  ⟨_, aluInPlace_of_lt hf hr f, s.readReg_writeReg_self _ _, writeReg_advance_frame s _ _⟩

/-- `return` reads relative register 0, which an empty window does not hold. -/
theorem exec_ret_of_len_eq_zero (h : cur.len = 0) : exec .ret s = .next (s.faulted .relRange) := by
  have h0 : cur.len ≤ (0#64).toNat := Nat.le_of_eq h
  simp only [exec, execReturn, withCur_cons hf, withAddr_relAddr_of_le h0]

theorem exec_call_of_dest_le {p n d : Word} (hn : n.toNat ≠ 0) (hd : cur.len ≤ d.toNat) :
    exec (.call p n d) s = .next (s.faulted .destRange) := by
  simp only [exec, execCall, if_neg hn, withCur_cons hf, withAddr_destAddr_of_le hd]

/-- The only frame that a call can put on the stack holds the destination in the caller's window (R55, R151). -/
theorem dest_of_exec_call {t : State} {f : Frame} {p n d : Word} (h : exec (.call p n d) s = .next t)
    (ht : t.frames = f :: s.frames) : f.dest = cur.base + d.toNat := by
  rcases execCall_cases h with ⟨-, rfl⟩ | ⟨cur', rest', hf', -, h⟩
  · simp at ht
  · obtain ⟨rfl, rfl⟩ : cur = cur' ∧ rest = rest' := List.cons.inj (hf.symm.trans hf')
    rcases h with ⟨-, rfl⟩ | ⟨-, -, rfl⟩ | ⟨g, -, hg, ⟨-, rfl⟩ | ⟨-, rfl⟩⟩
    · simp at ht
    · simp at ht
    · simp at ht
    · obtain ⟨rfl, -⟩ := List.cons.inj ht
      rfl

end

end Sys2Proof.Machine
end

section
/-! SUPPORT. The adder on natural numbers (R9, R61): sums, successors and predecessors modulo 2^64. -/

namespace Sys2Proof.Machine

theorem toNat_addW (a b : Word) : (addW a b).toNat = (a.toNat + b.toNat) % 2 ^ 64 := by
  rw [addW_eq, BitVec.toNat_add]

theorem toNat_addW_one_of_eq_max {a : Word} (h : a.toNat = 2 ^ 64 - 1) : (addW a 1#64).toNat = 0 := by
  simp [toNat_addW, h]

theorem toNat_addW_one_of_ne_max {a : Word} (h : a.toNat ≠ 2 ^ 64 - 1) :
    (addW a 1#64).toNat = a.toNat + 1 := by
  have ha := a.isLt
  rw [toNat_addW, BitVec.toNat_ofNat]
  omega

theorem toNat_subW_one_of_eq_zero {a : Word} (h : a.toNat = 0) : (subW a 1#64).toNat = 2 ^ 64 - 1 := by
  simp [subW, h]

theorem toNat_subW_one_of_ne_zero {a : Word} (h : a.toNat ≠ 0) :
    (subW a 1#64).toNat + 1 = a.toNat := by
  have ha := a.isLt
  simp only [subW, BitVec.toNat_ofNat]
  omega

end Sys2Proof.Machine
end

section
/-! SUPPORT. How far a growth goes (R58), and that capacity and records only ever grow (R60, R22). -/

namespace Sys2Proof.Machine

variable {s t : State}

/-- R58's `k`: the number of increments from `cap` to `need`, rounded up. -/
def State.growSteps (s : State) (need : Nat) : Nat := (need - s.cap) ⌈/⌉ s.params.growInc

/-- The capacity of a growth is `cap + k * GROW_INC` (R58). -/
theorem State.capFor_of_lt {need : Nat} (h : s.cap < need) :
    s.capFor need = s.cap + s.growSteps need * s.params.growInc := by
  rw [capFor, if_neg (Nat.not_le.2 h), growSteps, Nat.ceilDiv_eq_add_pred_div]

/-- `k` is the least number of increments that reaches the need (R58). -/
theorem State.growSteps_le_iff (hp : s.params.Ok) {need m : Nat} :
    s.growSteps need ≤ m ↔ need ≤ s.cap + m * s.params.growInc := by
  obtain ⟨hinc, -, -⟩ := hp
  rw [growSteps, ceilDiv_le_iff_le_mul hinc, Nat.sub_le_iff_le_add',
    Nat.mul_comm]

theorem State.one_le_growSteps (hp : s.params.Ok) {need : Nat} (h : s.cap < need) : 1 ≤ s.growSteps need := by
  have h0 : ¬ s.growSteps need ≤ 0 := by
    rw [growSteps_le_iff hp]
    omega
  omega

/-- A write clears no record. -/
theorem State.written_writeReg_of_written (a : Nat) (v : Word) {j : Nat} (h : s.written j = true) :
    (s.writeReg a v).written j = true := by
  by_cases hj : j = a
  · exact hj ▸ s.written_writeReg_self a v
  · rw [s.written_writeReg_ne v hj, h]

/-- `cap` has not decreased, and no register that existed has lost its record (R60, R22). -/
def NothingShrinks (s t : State) : Prop :=
  s.cap ≤ t.cap ∧ ∀ j, j < s.cap → s.written j = true → t.written j = true

theorem NothingShrinks.refl (s : State) : NothingShrinks s s := ⟨Nat.le_refl _, fun _ _ hw => hw⟩

theorem NothingShrinks.of_regKept (hc : s.cap ≤ t.cap) (hk : ∀ j, j < s.cap → RegKept j s t) :
    NothingShrinks s t :=
  ⟨hc, fun j hj hw => (hk j hj).2.trans hw⟩

theorem NothingShrinks.of_grow {need : Nat} (hg : s.grow need = some t) : NothingShrinks s t := by
  obtain ⟨-, hcap, hregs⟩ := State.grow_frame hg
  exact .of_regKept (hcap ▸ s.cap_le_capFor need) hregs

theorem NothingShrinks.of_writeReg (s : State) (a : Nat) (v : Word) : NothingShrinks s (s.writeReg a v) :=
  ⟨Nat.le_refl _, fun _ _ hw => State.written_writeReg_of_written a v hw⟩

/-- Only a growth and a register write touch `cap` or the register file. -/
theorem Effect.nothingShrinks (he : Effect s t) : NothingShrinks s t := by
  cases he with
  | fault c hc => exact .refl s
  | write a v ha => exact .of_writeReg s a v
  | exhausted => exact .refl s
  | grownExhausted g need hg => exact (.of_grow hg : NothingShrinks s g)
  | enter g cur rest p n d hf hn hd hg hsp => exact (.of_grow hg : NothingShrinks s g)
  | finish v => exact .refl s
  | leave cur rest k v hf hk => exact .of_writeReg s cur.dest v

end Sys2Proof.Machine
end

section
/-! Obligations of the registers, the addressing paths and the growth (20_memory.md). -/

namespace Sys2Proof.Machine

/-- Settles O10: both indices pass the bound, and the write leaves what `writeReg_advance_frame` says. -/
theorem moveCopies : Obligations.MoveCopies :=
  fun s _ _ hd hs => ⟨_, exec_move_of_lt hd hs, s.readReg_writeReg_self _ _, writeReg_advance_frame s _ _⟩

/-- Settles O11, like O10 with the immediate word. -/
theorem moveImmediateWrites : Obligations.MoveImmediateWrites :=
  fun s _ v hd => ⟨_, exec_moveImmediate_of_lt hd v, s.readReg_writeReg_self _ _, writeReg_advance_frame s _ _⟩

/-- Settles O12, the two sides of R52's bound. -/
theorem absolutePathIsBoundedByCapacity : Obligations.AbsolutePathIsBoundedByCapacity :=
  fun _ => ⟨fun _ hi => absAddr_ok_iff.2 ⟨hi, rfl⟩, fun _ _ h => exec_move_of_le h,
    fun _ v hd => exec_moveImmediate_of_le hd v⟩

/-- Settles O15: both indices lie in the window, and the adder sums modulo 2^64. -/
theorem addSumsModuloWord : Obligations.AddSumsModuloWord := by
  intro s cur rest d src hf hd hs
  refine ⟨_, exec_add_of_lt hf hd hs, ?_, writeReg_advance_frame s _ _⟩
  rw [State.readReg_advance, State.readReg_writeReg_self, toNat_addW]

/-- Settles O16: an in-place form whose function adds the immediate word. -/
theorem addImmediateSumsModuloWord : Obligations.AddImmediateSumsModuloWord := by
  intro s cur rest d v hf hd
  obtain ⟨t, ht, hval, hframe⟩ := aluInPlace_completes hf hd fun a => addW a v
  exact ⟨t, ht, by rw [hval, toNat_addW], hframe⟩

/-- Settles O17: an in-place form whose function adds 1, with and without the wrap. -/
theorem incrementAddsOne : Obligations.IncrementAddsOne := by
  intro s cur rest r hf hr
  obtain ⟨t, ht, hval, hframe⟩ := aluInPlace_completes hf hr fun a => addW a 1#64
  rw [← exec_increment] at ht
  refine ⟨t, ht, fun hmax => ?_, fun hmax => ?_, hframe⟩
  · rw [hval, toNat_addW_one_of_eq_max hmax]
  · rw [hval, toNat_addW_one_of_ne_max hmax]

/-- Settles O18: an in-place form whose function subtracts 1, with and without the wrap. -/
theorem decrementSubtractsOne : Obligations.DecrementSubtractsOne := by
  intro s cur rest r hf hr
  obtain ⟨t, ht, hval, hframe⟩ := aluInPlace_completes hf hr fun a => subW a 1#64
  rw [← exec_decrement] at ht
  refine ⟨t, ht, fun hzero => ?_, fun hzero => ?_, hframe⟩
  · rw [hval, toNat_subW_one_of_eq_zero hzero]
  · rw [hval, toNat_subW_one_of_ne_zero hzero]

/-- Settles O19, the two sides of R53's bound; the invariant puts the window's end at `in_use`, which `cap` bounds. -/
theorem relativePathIsBoundedByWindow : Obligations.RelativePathIsBoundedByWindow := by
  intro s cur rest hf
  refine ⟨fun r hr => ⟨relAddr_ok_iff.2 ⟨hr, rfl⟩, fun hi => ⟨?_, hi.window_lt_cap hf hr⟩⟩,
    fun d src h => exec_add_of_le hf h, fun d v hd => ?_, fun r hr => ?_, fun r hr => ?_,
    exec_ret_of_len_eq_zero hf⟩
  · have huse : s.inUse = cur.base + cur.len := hi.inUse_eq cur (by simp [hf])
    omega
  · rw [exec_addImmediate, aluInPlace_of_le hf hd]
  · rw [exec_increment, aluInPlace_of_le hf hr]
  · rw [exec_decrement, aluInPlace_of_le hf hr]

/-- Settles O25, the two sides of R55's bound and the frame that a call creates. -/
theorem destinationResolvedAtTheCall : Obligations.DestinationResolvedAtTheCall :=
  fun _ _ _ _ _ _ hf hn =>
    ⟨exec_call_of_dest_le hf hn, fun hd => ⟨destAddr_ok_iff.2 ⟨hd, rfl⟩, fun _ _ h ht => dest_of_exec_call hf h ht⟩⟩

/-- Settles O32: the least number of increments is `State.growSteps`. -/
theorem growthTakesTheLeastIncrements : Obligations.GrowthTakesTheLeastIncrements := by
  intro s need hp
  refine ⟨fun hle => State.grow_eq_some.2 (.inl ⟨hle, rfl⟩), fun hlt => ?_⟩
  have hcap := State.capFor_of_lt hlt
  refine ⟨s.growSteps need, State.one_le_growSteps hp hlt, (State.growSteps_le_iff hp).1 (Nat.le_refl _),
    fun m _ hm => (State.growSteps_le_iff hp).2 hm, fun hmax => ?_, fun hmax => ?_⟩
  · exact State.grow_eq_none.2 ⟨hlt, hcap ▸ hmax⟩
  · have hg : s.grow need = some (s.growTo (s.capFor need)) :=
      State.grow_eq_some.2 (.inr ⟨hlt, hcap ▸ hmax, rfl⟩)
    exact ⟨_, hg, hcap, fun i => State.written_grow_new hg⟩

/-- Settles O33, from what a growth keeps and what it creates. -/
theorem growthPreservesRegistersAndFrames : Obligations.GrowthPreservesRegistersAndFrames := by
  intro s g need hg
  obtain ⟨-, -, hregs⟩ := State.grow_frame hg
  exact ⟨hregs, State.grow_frames hg, fun i => State.written_grow_new hg⟩

/-- Settles O34: no effect of an instruction and no accepted start shrinks anything. -/
theorem capacityAndRecordsNeverShrink : Obligations.CapacityAndRecordsNeverShrink := by
  refine ⟨fun s t h => ?_, fun s t e r h => ?_⟩
  · by_cases hr : s.status = .run
    · exact (step_effect hr h).nothingShrinks
    · exact eq_of_step_of_not_run hr h ▸ NothingShrinks.refl s
  · obtain ⟨-, rfl⟩ := start_cases h
    obtain ⟨hcap, hregs⟩ := launch_regKept s e r
    exact NothingShrinks.of_regKept hcap hregs

end Sys2Proof.Machine
end

section
/-! SUPPORT. The decoder and the encoder, each through the four fields of a word: a word decodes to an instruction
exactly when it is that instruction's encoding (R78). -/

namespace Sys2Proof

variable {w : IWord} {i : Instr}

/-- The decoder's test of the fields that R73 marks MBZ. -/
theorem ifZero_eq_ok_iff {op : BitVec 8} {mbz : Bool} {j : Instr} :
    ifZero op mbz j = .ok i ↔ mbz = true ∧ j = i := by
  cases mbz <;> simp [ifZero]

/-- A word is the encoding of the instruction whose opcode and operands its four fields hold. -/
theorem encode_eq_of_fields (hop : w.op = i.opcode) (ha : w.fieldA = i.operandA) (hb : w.fieldB = i.operandB)
    (hc : w.fieldC = i.operandC) : encode i = w := by
  rw [encode, ← hop, ← ha, ← hb, ← hc, IWord.pack_fields]

/-- The opcode selects the row of R73, and the decoder's test makes the fields that the row leaves out zero. -/
theorem encode_eq_of_decodeWord (h : decodeWord w = .ok i) : encode i = w := by
  simp only [decodeWord] at h
  split at h
  case h_1 hop =>
    simp only [ifZero_eq_ok_iff, Bool.and_eq_true, beq_iff_eq] at h
    obtain ⟨⟨⟨ha, hb⟩, hc⟩, rfl⟩ := h
    exact encode_eq_of_fields (BitVec.eq_of_toNat_eq hop) ha hb hc
  case h_2 hop =>
    cases h
    exact encode_eq_of_fields (BitVec.eq_of_toNat_eq hop) rfl rfl rfl
  case h_9 => cases h
  case h_7 hop | h_8 hop =>
    simp only [ifZero_eq_ok_iff, Bool.and_eq_true, beq_iff_eq] at h
    obtain ⟨⟨hb, hc⟩, rfl⟩ := h
    exact encode_eq_of_fields (BitVec.eq_of_toNat_eq hop) rfl hb hc
  case h_3 hop | h_4 hop | h_5 hop | h_6 hop =>
    simp only [ifZero_eq_ok_iff, beq_iff_eq] at h
    obtain ⟨hc, rfl⟩ := h
    exact encode_eq_of_fields (BitVec.eq_of_toNat_eq hop) rfl rfl hc

/-- The four fields of an encoded word are the instruction's opcode and operands, which select the instruction's own
row of the decoder and pass its test. -/
theorem decodeWord_encode (i : Instr) : decodeWord (encode i) = .ok i := by
  obtain ⟨hop, ha, hb, hc⟩ := Laws.EncodeFields.of_pack i
  unfold decodeWord
  rw [hop, ha, hb, hc]
  cases i <;> rfl

/-- Eight opcodes are legal (R72, R76). -/
theorem Instr.opcode_lt (i : Instr) : i.opcode.toNat < 8 := by
  cases i <;> simp [Instr.opcode]

/-- A word that decodes has a legal opcode. -/
theorem op_lt_of_decodeWord (h : decodeWord w = .ok i) : w.op.toNat < 8 := by
  rw [← encode_eq_of_decodeWord h, encode, IWord.op_pack]
  exact i.opcode_lt

/-- A legal opcode with a nonzero value in a field that R73 marks MBZ for it (R77). -/
def IWord.BreaksMustBeZero (w : IWord) : Prop :=
  (w.op = 0 ∧ (w.fieldA ≠ 0 ∨ w.fieldB ≠ 0 ∨ w.fieldC ≠ 0)) ∨
    (2 ≤ w.op.toNat ∧ w.op.toNat ≤ 5 ∧ w.fieldC ≠ 0) ∨
    (6 ≤ w.op.toNat ∧ w.op.toNat ≤ 7 ∧ (w.fieldB ≠ 0 ∨ w.fieldC ≠ 0))

/-- An instruction's word is zero in the fields that its row of R73 marks MBZ. -/
theorem encode_keepsMustBeZero (i : Instr) : ¬ (encode i).BreaksMustBeZero := by
  obtain ⟨hop, ha, hb, hc⟩ := Laws.EncodeFields.of_pack i
  unfold IWord.BreaksMustBeZero
  rw [hop, ha, hb, hc]
  cases i <;> simp [Instr.opcode, Instr.operandA, Instr.operandB, Instr.operandC]

/-- A word that decodes is zero in its must-be-zero fields. -/
theorem not_breaksMustBeZero_of_decodeWord (h : decodeWord w = .ok i) : ¬ w.BreaksMustBeZero :=
  encode_eq_of_decodeWord h ▸ encode_keepsMustBeZero i

end Sys2Proof
end

section
/-! SUPPORT. The byte image of a word and of a program (R86), written and read. -/

namespace Sys2Proof

/-- The low `k` base-256 digits of a number, put together least significant first, are it modulo `256 ^ k`. -/
theorem foldr_digits (k n : Nat) :
    (List.range k).foldr (fun j m => n / 256 ^ j % 256 + 256 * m) 0 = n % 256 ^ k := by
  induction k generalizing n with
  | zero => simp [Nat.mod_one]
  | succ k ih =>
    have hshift : ∀ j, n / 256 ^ (j + 1) = n / 256 / 256 ^ j := fun j => by
      rw [Nat.pow_succ', Nat.div_div_eq_div_mul]
    simp only [List.range_succ_eq_map, List.foldr_cons, List.foldr_map, Nat.succ_eq_add_one, hshift, ih]
    rw [Nat.pow_zero, Nat.div_one, Nat.pow_succ', Nat.mod_mul]

@[simp] theorem length_wordBytes (w : IWord) : (wordBytes w).length = 25 := by
  simp [wordBytes]

theorem wordBytes_getElem? (w : IWord) {j : Nat} (hj : j < 25) :
    (wordBytes w)[j]? = some (w.extractLsb' (8 * j) 8) := by
  simp [wordBytes, hj]

/-- Byte `j` of a word is digit `j` of its value in base 256. -/
theorem toNat_byte (w : IWord) (j : Nat) : (w.extractLsb' (8 * j) 8).toNat = w.toNat / 256 ^ j % 256 := by
  rw [BitVec.extractLsb'_toNat, Nat.shiftRight_eq_div_pow, Nat.pow_mul]

/-- The 25 bytes of a word give it back, since `256 ^ 25 = 2 ^ 200`. -/
theorem wordOfBytes_wordBytes (w : IWord) : wordOfBytes (wordBytes w) = w := by
  have hlt : w.toNat < 256 ^ 25 := w.isLt
  simp only [wordOfBytes, wordBytes, List.foldr_map, toNat_byte, foldr_digits]
  rw [Nat.mod_eq_of_lt hlt, BitVec.ofNat_toNat, BitVec.setWidth_eq]

theorem imageOfProgram_cons (w : IWord) (p : List IWord) :
    imageOfProgram (w :: p) = wordBytes w ++ imageOfProgram p := rfl

theorem length_imageOfProgram (p : List IWord) : (imageOfProgram p).length = 25 * p.length := by
  induction p with
  | nil => rfl
  | cons w p ih =>
    rw [imageOfProgram_cons, List.length_append, length_wordBytes, ih, List.length_cons]
    omega

/-- Byte `25 k + j` of the image is byte `j` of word `k`. -/
theorem imageOfProgram_getElem? {p : List IWord} {k : Nat} {w : IWord} {j : Nat} (hw : p[k]? = some w)
    (hj : j < 25) : (imageOfProgram p)[25 * k + j]? = some (w.extractLsb' (8 * j) 8) := by
  induction p generalizing k with
  | nil => simp at hw
  | cons v p ih =>
    rw [imageOfProgram_cons]
    cases k with
    | zero =>
      obtain rfl : v = w := by simpa using hw
      rw [List.getElem?_append_left (by rw [length_wordBytes]; omega), Nat.mul_zero, Nat.zero_add,
        wordBytes_getElem? v hj]
    | succ k =>
      rw [List.getElem?_append_right (by rw [length_wordBytes]; omega), length_wordBytes,
        show 25 * (k + 1) + j - 25 = 25 * k + j by omega]
      exact ih (by simpa using hw)

theorem readImage_nil (fuel : Nat) : readImage fuel [] = some [] := by
  cases fuel <;> rfl

/-- A read of an image takes the 25 bytes at its front as a word and goes on behind them. -/
theorem readImage_append {bs : List Byte} (hbs : bs.length = 25) (fuel : Nat) (rest : List Byte) :
    readImage (fuel + 1) (bs ++ rest) = (readImage fuel rest).map (wordOfBytes bs :: ·) := by
  cases bs with
  | nil => simp at hbs
  | cons b bs =>
    have hlen : ¬ (b :: bs ++ rest).length < 25 := by rw [List.length_append]; omega
    rw [List.cons_append, readImage, ← List.cons_append, if_neg hlen, List.drop_left' hbs, List.take_left' hbs]

/-- With fuel for every word, reading the image gives the program back. -/
theorem readImage_imageOfProgram {p : List IWord} {fuel : Nat} (hfuel : p.length ≤ fuel) :
    readImage fuel (imageOfProgram p) = some p := by
  induction p generalizing fuel with
  | nil => exact readImage_nil fuel
  | cons w p ih =>
    cases fuel with
    | zero => simp at hfuel
    | succ fuel =>
      rw [imageOfProgram_cons, readImage_append (length_wordBytes w), ih (Nat.le_of_succ_le_succ hfuel),
        Option.map_some, wordOfBytes_wordBytes]

theorem programOfImage_imageOfProgram (p : List IWord) : programOfImage (imageOfProgram p) = some p := by
  refine readImage_imageOfProgram ?_
  rw [length_imageOfProgram]
  omega

end Sys2Proof
end

section
/-! SUPPORT. The step of a running core by what it fetches, steps outside RUN, and the outcomes of an execution by the
status they leave. -/

namespace Sys2Proof.Machine

variable {s t : State}

/-! ## The fetch and the decoding (R79, R80) -/

theorem step_of_pc_past_end (hr : s.status = .run) (h : s.imem.length ≤ s.pc.toNat) :
    step s = .next (s.faulted .fetchRange) := by
  rcases step_of_run hr with ⟨-, e⟩ | ⟨w, hw, -⟩
  · exact e
  · rw [State.fetch_eq_none.2 h] at hw
    cases hw

theorem step_of_undecodable {w : IWord} (hr : s.status = .run) (hw : s.fetch = some w)
    (h : ∀ i, decodeWord w ≠ .ok i) : step s = .next (s.faulted .illegalInstruction) := by
  rcases step_of_run hr with ⟨hn, -⟩ | ⟨v, hv, hstep⟩
  · rw [hn] at hw
    cases hw
  · obtain rfl : v = w := Option.some.inj (hv.symm.trans hw)
    rcases hstep with ⟨-, -, e⟩ | ⟨i, hi, -⟩
    · exact e
    · exact absurd hi (h i)

/-- What answers itself to one step answers itself to any number. -/
theorem runFor_of_step_self (h : step s = .next s) (k : Nat) : runFor k s = .next s := by
  induction k with
  | zero => rfl
  | succ k ih => rw [runFor, h]; exact ih

/-! ## Which outcome leaves which status -/

/-- What a sequential instruction (R82) can make of `s`: a fault, or one register written and `pc` advanced. -/
inductive SequentialEffect (s : State) : State → Prop where
  | fault (c : FaultCode) : SequentialEffect s (s.faulted c)
  | write (a : Nat) (v : Word) : SequentialEffect s (s.writeReg a v).advance

theorem aluInPlace_sequential {r : Word} {f : Word → Word} (h : aluInPlace r f s = .next t) :
    SequentialEffect s t := by
  obtain ⟨cur, rest, -, ⟨-, rfl⟩ | ⟨-, rfl⟩⟩ := aluInPlace_cases h
  · exact .fault _
  · exact .write _ _

/-- Every instruction but `call` and `return` is sequential (R82, R150). -/
theorem exec_sequential {i : Instr} (hret : i ≠ .ret) (hcall : ∀ p n d, i ≠ .call p n d)
    (h : exec i s = .next t) : SequentialEffect s t := by
  cases i with
  | ret => exact absurd rfl hret
  | call p n d => exact absurd rfl (hcall p n d)
  | move d src =>
    rcases execMove_cases h with ⟨-, rfl⟩ | ⟨-, -, rfl⟩
    · exact .fault _
    · exact .write _ _
  | moveImmediate d v =>
    rcases execMoveImmediate_cases h with ⟨-, rfl⟩ | ⟨-, rfl⟩
    · exact .fault _
    · exact .write _ _
  | add d src =>
    obtain ⟨cur, rest, -, ⟨-, rfl⟩ | ⟨-, -, rfl⟩⟩ := execAdd_cases h
    · exact .fault _
    · exact .write _ _
  | addImmediate d v => exact aluInPlace_sequential (exec_addImmediate d v s ▸ h)
  | increment r => exact aluInPlace_sequential (exec_increment r s ▸ h)
  | decrement r => exact aluInPlace_sequential (exec_decrement r s ▸ h)

/-- A call that is neither a fault nor an exhaustion has entered a frame after its growth (R151). -/
theorem enterFrame_of_exec_call {p n d : Word} (h : exec (.call p n d) s = .next t) (h1 : t.status ≠ .fault)
    (h2 : t.status ≠ .failed) : ∃ g f, s.grow (s.inUse + n.toNat) = some g ∧ t = g.enterFrame f p := by
  rcases execCall_cases h with ⟨-, rfl⟩ | ⟨cur, rest, -, -, hc⟩
  · exact absurd rfl h1
  · rcases hc with ⟨-, rfl⟩ | ⟨-, -, rfl⟩ | ⟨g, -, hg, ⟨-, rfl⟩ | ⟨-, rfl⟩⟩
    · exact absurd rfl h1
    · exact absurd rfl h2
    · exact absurd rfl h2
    · exact ⟨g, _, hg, rfl⟩

/-- A return that leaves the core running has left the current frame (R155). -/
theorem pc_of_exec_ret_of_run {cur : Frame} {rest : List Frame} (hf : s.frames = cur :: rest)
    (h : exec .ret s = .next t) (hr : t.status = .run) : t.pc = cur.resumePc := by
  obtain ⟨cur', rest', hf', hc⟩ := execReturn_cases h
  obtain ⟨rfl, -⟩ := List.cons.inj (hf.symm.trans hf')
  rcases hc with ⟨-, rfl⟩ | ⟨-, -, rfl⟩ | ⟨-, -, rfl⟩
  · cases hr
  · cases hr
  · rfl

/-- Only a return ends in DONE: a sequential instruction and a call leave RUN only by a fault or an exhaustion. -/
theorem eq_ret_of_exec_done {i : Instr} (hr : s.status = .run) (h : exec i s = .next t) (hd : t.status = .done) :
    i = .ret := by
  by_contra hret
  by_cases hcall : ∃ p n d, i = .call p n d
  · obtain ⟨p, n, d, rfl⟩ := hcall
    obtain ⟨g, f, hg, rfl⟩ := enterFrame_of_exec_call h (by simp [hd]) (by simp [hd])
    simp [State.grow_status hg, hr] at hd
  · cases exec_sequential hret (by simpa using hcall) h with
    | fault c => simp at hd
    | write a v => simp [hr] at hd

/-- A step into FAULT changes what R182 says and nothing else. -/
theorem Effect.of_fault (he : Effect s t) (hr : s.status = .run) (ht : t.status = .fault) :
    ∃ c, c ≠ .none ∧ t = s.faulted c := by
  cases he with
  | fault c hc => exact ⟨c, hc, rfl⟩
  | write a v ha => simp [hr] at ht
  | exhausted => simp at ht
  | grownExhausted g need hg => simp at ht
  | enter g cur rest p n d hf hn hlt hg hsp => simp [State.grow_status hg, hr] at ht
  | finish v => simp at ht
  | leave cur rest k v hf hk => simp [hr] at ht

/-- A fetched instruction lies in the program (R79). -/
theorem State.pc_lt_of_fetched {i : Instr} (hf : s.fetched = some i) : s.pc.toNat < s.imem.length := by
  obtain ⟨-, w, hw, -⟩ := State.fetched_eq_some.1 hf
  exact State.lt_of_fetch hw

end Sys2Proof.Machine
end

section
/-! Obligations of the encoding, the fetch and the program counter (30_encoding.md). -/

namespace Sys2Proof.Machine

/-- Settles O2, from the four fields of the encoded word. -/
theorem decodeEncode : Obligations.DecodeEncode := decodeWord_encode

/-- Settles O3, row by row of the decoder. -/
theorem decodedWordIsTheEncoding : Obligations.DecodedWordIsTheEncoding :=
  fun _ _ => encode_eq_of_decodeWord

/-- Settles O4: a word that decodes has an opcode below 8. -/
theorem reservedOpcodesFault : Obligations.ReservedOpcodesFault := by
  intro s w hr hw hop
  refine step_of_undecodable hr hw fun i hi => ?_
  exact Nat.not_lt.2 hop (op_lt_of_decodeWord hi)

/-- Settles O5: a word that decodes is zero where R73 says MBZ. -/
theorem nonzeroMustBeZeroFieldsFault : Obligations.NonzeroMustBeZeroFieldsFault := by
  intro s w hr hw hmbz
  exact step_of_undecodable hr hw fun i hi => not_breaksMustBeZero_of_decodeWord hi hmbz

/-- Settles O6, by induction over the program's words. -/
theorem programImageRoundTrip : Obligations.ProgramImageRoundTrip :=
  fun p => ⟨length_imageOfProgram p, programOfImage_imageOfProgram p, fun _ _ _ => imageOfProgram_getElem?⟩

/-- Settles O28: a call that runs has entered its frame with `pc = target_pc`, in the same program. -/
theorem callPastTheEndFaultsAtItsFetch : Obligations.CallPastTheEndFaultsAtItsFetch := by
  intro s t p n d hi hf h ht
  have hpc := State.pc_lt_of_fetched hf
  refine ⟨hi.toNat_succ_pc hpc, hpc, fun hp => ?_⟩
  rw [step_of_fetched hf] at h
  obtain ⟨g, f, hg, rfl⟩ := enterFrame_of_exec_call h (by simp [ht]) (by simp [ht])
  refine ⟨?_, step_of_pc_past_end ht ?_, rfl⟩
  · simp [State.sp, State.grow_frames hg]
  · simpa [State.grow_imem hg] using hp

/-- Settles O40, the outcomes of an execution by the status they leave. -/
theorem programCounterUpdate : Obligations.ProgramCounterUpdate := by
  refine ⟨fun s t i hi hf h => ?_, fun s t hr h ht => ?_⟩
  · rw [step_of_fetched hf] at h
    obtain ⟨hr, -⟩ := State.fetched_eq_some.1 hf
    refine ⟨fun ht => ⟨fun hret hcall => ?_, ?_, ?_⟩, fun ht => ?_⟩
    · cases exec_sequential hret hcall h with
      | fault c => simp at ht
      | write a v => exact hi.toNat_succ_pc (State.pc_lt_of_fetched hf)
    · rintro p n d rfl
      obtain ⟨g, f, -, rfl⟩ := enterFrame_of_exec_call h (by simp [ht]) (by simp [ht])
      rfl
    · rintro rfl cur rest hfr
      exact pc_of_exec_ret_of_run hfr h ht
    · obtain ⟨v, rfl⟩ := (exec_effect h).of_done hr ht
      exact ⟨eq_ret_of_exec_done hr h ht, rfl⟩
  · obtain ⟨c, -, rfl⟩ := (step_effect hr h).of_fault hr ht
    rfl

/-- Settles O1: each word is the encoding of its instruction. -/
theorem specWordsDecode : Obligations.SpecWordsDecode :=
  ⟨decodeWord_encode .ret, decodeWord_encode (.call 7 3 1), decodeWord_encode (.move 0 1),
    decodeWord_encode (.moveImmediate 0 42), decodeWord_encode (.add 0 1), decodeWord_encode (.addImmediate 0 2),
    decodeWord_encode (.increment 9), decodeWord_encode (.decrement 5)⟩

/-- Settles O7, by `step_of_fetched`. -/
theorem stepRunsTheFetchedInstruction : Obligations.StepRunsTheFetchedInstruction :=
  fun _ w _ hr hw hd => step_of_fetched (State.fetched_eq_some.2 ⟨hr, w, hw, hd⟩)

/-- Settles O8, the two sides of R79's check. -/
theorem fetchReadsOrFaults : Obligations.FetchReadsOrFaults :=
  fun _ hr => ⟨step_of_pc_past_end hr, List.getElem?_eq_getElem⟩

/-- Settles O9: outside RUN a step answers the state itself, and so does every further one. -/
theorem noStepUnlessRunning : Obligations.NoStepUnlessRunning :=
  fun _ k hr => ⟨step_of_not_run hr, runFor_of_step_self (step_of_not_run hr) k⟩

end Sys2Proof.Machine
end

section
/-! SUPPORT. The absolute path as one write: what `move` and `move_immediate` have in common (R100 to R102). -/

namespace Sys2Proof.Machine

variable {s t : State} {i : Instr} {x v src : Word}

theorem moveDest_eq_some {d : Word} (h : moveDest i = some d) :
    (∃ src, i = .move d src) ∨ ∃ v, i = .moveImmediate d v := by
  cases i with
  | move d' src => exact .inl ⟨src, by simpa [moveDest] using h⟩
  | moveImmediate d' v => exact .inr ⟨v, by simpa [moveDest] using h⟩
  | _ => simp [moveDest] at h

/-- An absolute-path instruction: an absolute index out of range, or one word written to its destination. -/
theorem exec_cases_of_moveDest {d : Word} (hd : moveDest i = some d) (h : exec i s = .next t) :
    t = s.faulted .absRange ∨ (d.toNat < s.cap ∧ ∃ v, t = (s.writeReg d.toNat v).advance) := by
  rcases moveDest_eq_some hd with ⟨src, rfl⟩ | ⟨v, rfl⟩
  · rcases execMove_cases h with ⟨-, ht⟩ | ⟨hlt, -, ht⟩
    · exact .inl ht
    · exact .inr ⟨hlt, _, ht⟩
  · rcases execMoveImmediate_cases h with ⟨-, ht⟩ | ⟨hlt, ht⟩
    · exact .inl ht
    · exact .inr ⟨hlt, _, ht⟩

/-- Both forms with their indices in range write the word `v`, the immediate or the source's, to `x`. -/
theorem exec_of_move_or_moveImmediate (hx : x.toNat < s.cap)
    (hi : i = .moveImmediate x v ∨ (i = .move x src ∧ src.toNat < s.cap ∧ v = s.readReg src.toNat)) :
    exec i s = .next (s.writeReg x.toNat v).advance := by
  rcases hi with rfl | ⟨rfl, hsrc, rfl⟩
  · exact exec_moveImmediate_of_lt hx v
  · exact exec_move_of_lt hx hsrc

end Sys2Proof.Machine
end

section
/-! SUPPORT. A call that enters its frame and a return to a caller, as equations (R151, R155), and what the callee
finds in the registers. -/

namespace Sys2Proof.Machine

variable {s t g : State} {cur : Frame} {rest : List Frame} {p n d : Word}

/-- The frame that a call from `cur` creates (R151, R55). -/
def State.calleeFrame (s : State) (cur : Frame) (n d : Word) : Frame :=
  { link := some (s.sp - 1), resumePc := s.pc + 1, base := s.inUse, len := n.toNat, dest := cur.base + d.toNat }

/-- A growth succeeds when the capacity is there or can be reached (R58). -/
theorem State.exists_grow {need : Nat} (h : need ≤ s.cap ∨ s.capFor need ≤ s.params.maxRegs) :
    ∃ g, s.grow need = some g := by
  by_cases hle : need ≤ s.cap
  · exact ⟨s, grow_eq_some.2 (.inl ⟨hle, rfl⟩)⟩
  · exact ⟨_, grow_eq_some.2 (.inr ⟨Nat.not_le.1 hle, h.resolve_left hle, rfl⟩)⟩

/-- The call that passes every check of R151. -/
theorem exec_call_of_grow (hf : s.frames = cur :: rest) (hn : n.toNat ≠ 0) (hd : d.toNat < cur.len)
    (hg : s.grow (s.inUse + n.toNat) = some g) (hsp : s.sp ≠ s.params.maxFrames) :
    exec (.call p n d) s = .next (g.enterFrame (s.calleeFrame cur n d) p) := by
  have hgsp : ¬ g.sp = g.params.maxFrames := by
    rwa [State.sp, State.grow_frames hg, State.grow_params hg]
  simp only [exec, execCall, if_neg hn, withCur_cons hf, destAddr_ok_iff.2 ⟨hd, rfl⟩, withAddr_ok, hg,
    if_neg hgsp, State.calleeFrame]

/-- A call that leaves the core running has grown the file and entered its frame. -/
theorem enterFrame_of_exec_call_run (h : exec (.call p n d) s = .next t) (hr : t.status = .run) :
    ∃ cur g, s.grow (s.inUse + n.toNat) = some g ∧ t = g.enterFrame (s.calleeFrame cur n d) p := by
  rcases execCall_cases h with ⟨-, rfl⟩ | ⟨cur, rest, -, -, hc⟩
  · simp at hr
  · rcases hc with ⟨-, rfl⟩ | ⟨-, -, rfl⟩ | ⟨g, -, hg, ⟨-, rfl⟩ | ⟨-, rfl⟩⟩
    · simp at hr
    · simp at hr
    · simp at hr
    · exact ⟨cur, g, hg, rfl⟩

/-- The registers that existed at a call are kept in the callee (R59). -/
theorem regKept_enterFrame {need a : Nat} (hg : s.grow need = some g) (ha : a < s.cap) (f : Frame) :
    RegKept a s (g.enterFrame f p) := by
  obtain ⟨-, -, hregs⟩ := State.grow_frame hg
  exact hregs a ha

/-- The return of a callee to its caller (R155). -/
theorem exec_ret_of_link {k : Nat} (hf : s.frames = cur :: rest) (hk : cur.link = some k) (hlen : 1 ≤ cur.len) :
    exec .ret s = .next ((s.writeReg cur.dest (s.readReg cur.base)).leaveFrame cur) := by
  have h0 : (0#64).toNat < cur.len := hlen
  simp only [exec, execReturn, withCur_cons hf, withAddr_relAddr_of_lt h0, hk, BitVec.toNat_ofNat,
    Nat.zero_mod, Nat.add_zero]

/-- A callee of two instructions, `add_immediate 0, v` and `return`: the caller's destination gets the sum of the
callee's relative register 0 and `v`. -/
theorem exec_addImmediate_zero_ret {k : Nat} (hf : s.frames = cur :: rest) (hk : cur.link = some k)
    (hlen : 1 ≤ cur.len) (v : Word) :
    ∃ t u, exec (.addImmediate 0 v) s = .next t ∧ exec .ret t = .next u ∧
      u.readReg cur.dest = addW (s.readReg cur.base) v ∧ u.frames = rest ∧ u.inUse = s.inUse - cur.len ∧
      u.pc = cur.resumePc := by
  have h0 : (0 : Word).toNat < cur.len := hlen
  refine ⟨_, _, aluInPlace_of_lt hf h0 fun a => addW a v, exec_ret_of_link hf hk hlen, ?_,
    congrArg List.tail hf, rfl, rfl⟩
  rw [State.readReg_leaveFrame, State.readReg_writeReg_self]
  exact s.readReg_writeReg_self cur.base _

/-- A call of that callee from any frame with the resources: it adds `k` to the word at the caller's `in_use`, the base
of its window, and the caller goes on behind the call with the sum in its destination. -/
theorem exec_call_addImmediate_zero_ret (hf : s.frames = cur :: rest) (huse : s.inUse < s.cap) (hn : 1 ≤ n.toNat)
    (hd : d.toNat < cur.len)
    (hres : s.inUse + n.toNat ≤ s.cap ∨ s.capFor (s.inUse + n.toNat) ≤ s.params.maxRegs)
    (hsp : s.sp ≠ s.params.maxFrames) (k : Word) :
    ∃ t u w, exec (.call p n d) s = .next t ∧ exec (.addImmediate 0 k) t = .next u ∧ exec .ret u = .next w ∧
      w.readReg (cur.base + d.toNat) = addW (s.readReg s.inUse) k ∧ w.frames = s.frames ∧ w.inUse = s.inUse ∧
      w.pc = s.pc + 1 := by
  obtain ⟨g, hg⟩ := State.exists_grow hres
  have hcall := exec_call_of_grow (p := p) hf (Nat.one_le_iff_ne_zero.1 hn) hd hg hsp
  obtain ⟨u, w, hadd, hret, hsum, hrest, hback, hpc⟩ := exec_addImmediate_zero_ret
    (g.enterFrame_frames (s.calleeFrame cur n d) p) rfl (show 1 ≤ (s.calleeFrame cur n d).len from hn) k
  obtain ⟨hparam, -⟩ := regKept_enterFrame (p := p) hg huse (s.calleeFrame cur n d)
  refine ⟨_, u, w, hcall, hadd, hret, hsum.trans (congrArg (addW · k) hparam), ?_, ?_, hpc⟩
  · rw [hrest, State.grow_frames hg]
  · rw [hback, State.enterFrame_inUse, Nat.add_sub_cancel, State.grow_inUse hg]

end Sys2Proof.Machine
end

section
/-! Obligations of the absolute path (40_move.md). -/

namespace Sys2Proof.Machine

/-- Settles O13, the fault and the one write of the absolute path. -/
theorem moveFrame : Obligations.MoveFrame := by
  intro i d hd s t h
  rcases exec_cases_of_moveDest hd h with rfl | ⟨hlt, v, rfl⟩
  · exact ⟨fun _ _ _ _ => ⟨rfl, rfl⟩, fun _ _ _ => ⟨rfl, rfl⟩, .inl rfl⟩
  · obtain ⟨-, hothers, hpc, honly⟩ := writeReg_advance_frame s d.toNat v
    refine ⟨fun a ha => ?_, fun c hc => ?_, .inr ⟨hpc, honly⟩⟩
    · obtain ⟨-, rfl⟩ := absAddr_ok_iff.1 ha
      exact hothers
    · obtain ⟨hle, -⟩ := absAddr_error_iff.1 hc
      exact absurd hlt (Nat.not_lt.2 hle)

/-- Settles O14: which case an absolute-path instruction takes and what it writes depend on `cap` and the registers
alone, so it takes the same one on any other frame stack. -/
theorem movesIgnoreTheFrameStack : Obligations.MovesIgnoreTheFrameStack := by
  intro i d hd s t fs n h
  rcases moveDest_eq_some hd with ⟨src, rfl⟩ | ⟨v, rfl⟩
  · rcases execMove_cases h with ⟨hle, rfl⟩ | ⟨hlt, hsrc, rfl⟩
    · exact ⟨rfl, rfl, exec_move_of_le hle⟩
    · exact ⟨rfl, rfl, exec_move_of_lt hlt hsrc⟩
  · rcases execMoveImmediate_cases h with ⟨hle, rfl⟩ | ⟨hlt, rfl⟩
    · exact ⟨rfl, rfl, exec_moveImmediate_of_le (s := { s with frames := fs, inUse := n }) hle v⟩
    · exact ⟨rfl, rfl, exec_moveImmediate_of_lt (s := { s with frames := fs, inUse := n }) hlt v⟩

/-- Settles O56: the callee's window starts at the caller's `in_use`, and the growth keeps the word. -/
theorem premovedWordIsCalleeRegister : Obligations.PremovedWordIsCalleeRegister := by
  intro s t u x v src p n d j i _ hx hj hcap hi ht hu hrun
  obtain rfl : (s.writeReg x.toNat v).advance = t :=
    Host.Outcome.next.inj ((exec_of_move_or_moveImmediate hcap hi).symm.trans ht)
  obtain ⟨cur, g, hg, rfl⟩ := enterFrame_of_exec_call_run hu hrun
  have hframes : g.frames = s.frames := by rw [State.grow_frames hg, State.advance_frames, State.writeReg_frames]
  obtain ⟨hread, hwritten⟩ := regKept_enterFrame (p := p) hg hcap (State.calleeFrame _ cur n d)
  exact ⟨_, _, rfl, hframes, relAddr_ok_iff.2 ⟨hj, hx⟩, hread.trans (s.readReg_writeReg_self _ v),
    hwritten.trans (s.written_writeReg_self _ v)⟩

/-- Settles O57: the pre-moved word stands at `in_use`, the base of the callee's window. -/
theorem callWithParameterYieldsTheSum : Obligations.CallWithParameterYieldsTheSum := by
  intro s cur rest x v p n d k _ hf hx hcap hn hd hres hsp
  obtain ⟨t, u, w, hcall, hadd, hret, hsum, hframes, huse, hpc⟩ := exec_call_addImmediate_zero_ret (p := p)
    (s := (s.writeReg x.toNat v).advance) hf (hx ▸ hcap) hn hd hres hsp k
  have hparam : (s.writeReg x.toNat v).advance.readReg s.inUse = v := hx ▸ s.readReg_writeReg_self x.toNat v
  refine ⟨_, t, u, w, exec_moveImmediate_of_lt hcap v, hcall, hadd, hret, ?_, hframes, huse, ?_⟩
  · rw [hsum, State.advance_inUse, State.writeReg_inUse, hparam, toNat_addW]
  · rw [hpc, State.advance_pc, State.writeReg_pc, BitVec.add_assoc]
    rfl

/-- Settles O58: the return writes `dest` last, and the callee's register 0 lies above it. -/
theorem returnOverwritesTheCalleesWrite : Obligations.ReturnOverwritesTheCalleesWrite := by
  intro s cur caller rest x v src i hi hf hx hform
  rcases hi.cur_cases hf with ⟨hroot, -⟩ | ⟨_, _, -, hlink, -, hlen, -, hdest, -⟩
  · cases hroot
  · have hcap : x.toNat < s.cap := hx ▸ hi.dest_lt_cap hf hlink
    have hbase : cur.base ≠ x.toNat := hx ▸ Nat.ne_of_gt hdest
    refine ⟨_, _, exec_of_move_or_moveImmediate hcap hform, ?_, exec_ret_of_link hf hlink hlen, ?_⟩
    · rw [← hx, State.readReg_advance, State.readReg_writeReg_self]
    · rw [State.readReg_leaveFrame, State.readReg_writeReg_self, State.readReg_advance,
        s.readReg_writeReg_ne v hbase]

end Sys2Proof.Machine
end

section
/-! SUPPORT. The four ALU instructions as one write inside the window (R120), and two in-place forms in a row
(R125). -/

namespace Sys2Proof.Machine

variable {s : State} {cur : Frame} {rest : List Frame} {i : Instr} {d r : Word}

/-! ## What the four instructions have in common -/

/-- In every state whose current frame is `cur`, `i` takes the REL_RANGE fault. -/
def FaultsUnder (cur : Frame) (i : Instr) : Prop :=
  ∀ s : State, ∀ rest, s.frames = cur :: rest → exec i s = .next (s.faulted .relRange)

/-- In every state whose current frame is `cur`, `i` writes the register at `d` of the window, with a word that `f`
computes from that register and the one at `src` of the window. -/
def CombinesUnder (cur : Frame) (i : Instr) (d src : Word) (f : Word → Word → Word) : Prop :=
  ∀ s : State, ∀ rest, s.frames = cur :: rest → exec i s =
    .next (s.writeReg (cur.base + d.toNat)
      (f (s.readReg (cur.base + d.toNat)) (s.readReg (cur.base + src.toNat)))).advance

theorem aluDest_eq_some (hd : aluDest i = some d) :
    (∃ src, i = .add d src) ∨ ∃ f, ∀ s, exec i s = aluInPlace d f s := by
  cases i with
  | add d' src => exact .inl ⟨src, by simpa [aluDest] using hd⟩
  | addImmediate d' v =>
    obtain rfl : d' = d := Option.some.inj hd
    exact .inr ⟨_, exec_addImmediate d' v⟩
  | increment d' =>
    obtain rfl : d' = d := Option.some.inj hd
    exact .inr ⟨_, exec_increment d'⟩
  | decrement d' =>
    obtain rfl : d' = d := Option.some.inj hd
    exact .inr ⟨_, exec_decrement d'⟩
  | _ => cases hd

/-- The current frame alone decides whether an ALU instruction faults; if it does not, destination and source both lie
in the window. The source of an in-place form is its destination. -/
theorem faults_or_combines_of_aluDest (cur : Frame) (hd : aluDest i = some d) :
    FaultsUnder cur i ∨
      (d.toNat < cur.len ∧ ∃ src f, src.toNat < cur.len ∧ CombinesUnder cur i d src f) := by
  rcases aluDest_eq_some hd with ⟨src, rfl⟩ | ⟨f, hi⟩
  · by_cases hlt : d.toNat < cur.len ∧ src.toNat < cur.len
    · obtain ⟨hdst, hsrc⟩ := hlt
      exact .inr ⟨hdst, src, addW, hsrc, fun _ _ hf => exec_add_of_lt hf hdst hsrc⟩
    · exact .inl fun _ _ hf => exec_add_of_le hf (by omega)
  · by_cases hlt : d.toNat < cur.len
    · exact .inr ⟨hlt, d, fun a _ => f a, hlt, fun s _ hf => (hi s).trans (aluInPlace_of_lt hf hlt f)⟩
    · exact .inl fun s _ hf => (hi s).trans (aluInPlace_of_le hf (Nat.not_lt.1 hlt) f)

/-! ## A write and what it leaves alone -/

/-- One word written to one register of two states: a register on which they agreed, they still agree on. -/
theorem regKept_writeReg_advance {s t : State} {j : Nat} (a : Nat) (v : Word) (h : RegKept j s t) :
    RegKept j (s.writeReg a v).advance (t.writeReg a v).advance := by
  by_cases hj : j = a
  · subst hj
    simp [RegKept]
  · obtain ⟨hread, hwritten⟩ := h
    simp [RegKept, State.readReg_writeReg_ne _ v hj, State.written_writeReg_ne _ v hj, hread, hwritten]

theorem othersKept_writeReg_advance (s : State) (a : Nat) (v : Word) :
    OthersKept a s (s.writeReg a v).advance := by
  obtain ⟨-, hothers, -⟩ := writeReg_advance_frame s a v
  exact hothers

/-! ## Two in-place forms of one register -/

section

variable (hf : s.frames = cur :: rest) (hr : r.toNat < cur.len)
include hf hr

/-- They complete and apply the composition of their functions to that register alone. -/
theorem aluInPlace_aluInPlace (f g : Word → Word) :
    ∃ t u, aluInPlace r f s = .next t ∧ aluInPlace r g t = .next u ∧
      u.readReg (cur.base + r.toNat) = g (f (s.readReg (cur.base + r.toNat))) ∧
      u.written (cur.base + r.toNat) = true ∧ OthersKept (cur.base + r.toNat) s u := by
  obtain ⟨t, ht, htval, -, htothers, -, htonly⟩ := aluInPlace_completes hf hr f
  have hft : t.frames = cur :: rest := (congrArg State.frames htonly).trans hf
  obtain ⟨u, hu, huval, huwritten, huothers, -⟩ := aluInPlace_completes hft hr g
  refine ⟨t, u, ht, hu, huval.trans (congrArg g htval), huwritten, fun j hj => ?_⟩
  obtain ⟨htread, htrec⟩ := htothers j hj
  obtain ⟨huread, hurec⟩ := huothers j hj
  exact ⟨huread.trans htread, hurec.trans htrec⟩

/-- A function and then its left inverse give every register its old word. -/
theorem aluInPlace_leftInverse {f g : Word → Word} (hgf : Function.LeftInverse g f) :
    ∃ t u, aluInPlace r f s = .next t ∧ aluInPlace r g t = .next u ∧ ∀ j, u.readReg j = s.readReg j := by
  obtain ⟨t, u, ht, hu, hval, -, hothers⟩ := aluInPlace_aluInPlace hf hr f g
  refine ⟨t, u, ht, hu, fun j => ?_⟩
  by_cases hj : j = cur.base + r.toNat
  · rw [hj, hval, hgf]
  · obtain ⟨hread, -⟩ := hothers j hj
    exact hread

/-- Two functions in a row leave every register as their composition does. -/
theorem aluInPlace_comp (f g : Word → Word) :
    ∃ t u v, aluInPlace r f s = .next t ∧ aluInPlace r g t = .next u ∧ aluInPlace r (g ∘ f) s = .next v ∧
      ∀ j, RegKept j v u := by
  obtain ⟨t, u, ht, hu, huval, huwritten, huothers⟩ := aluInPlace_aluInPlace hf hr f g
  obtain ⟨v, hv, hvval, hvwritten, hvothers, -⟩ := aluInPlace_completes hf hr (g ∘ f)
  refine ⟨t, u, v, ht, hu, hv, fun j => ?_⟩
  by_cases hj : j = cur.base + r.toNat
  · subst hj
    exact ⟨huval.trans hvval.symm, huwritten.trans hvwritten.symm⟩
  · obtain ⟨huread, hurec⟩ := huothers j hj
    obtain ⟨hvread, hvrec⟩ := hvothers j hj
    exact ⟨huread.trans hvread.symm, hurec.trans hvrec.symm⟩

end

/-! ## The adder's laws (R9, R125) -/

theorem subW_addW_cancel (b : Word) : Function.LeftInverse (subW · b) (addW · b) := fun a => by
  simp only [subW_eq, addW_eq, BitVec.add_sub_cancel]

theorem addW_subW_cancel (b : Word) : Function.LeftInverse (addW · b) (subW · b) := fun a => by
  simp only [subW_eq, addW_eq, BitVec.sub_add_cancel]

theorem addW_comp_addW (b c : Word) : (addW · c) ∘ (addW · b) = (addW · (addW b c)) :=
  funext fun a => by simp only [Function.comp_apply, addW_eq, BitVec.add_assoc]

end Sys2Proof.Machine
end

section
/-! Obligations of the ALU (41_alu.md). -/

namespace Sys2Proof.Machine

/-- Settles O20, the fault and the one write of an ALU instruction. -/
theorem aluFrame : Obligations.AluFrame := by
  intro i d hd s t cur rest hf h
  rcases faults_or_combines_of_aluDest cur hd with hfault | ⟨hlt, src, f, -, hcomb⟩
  · obtain rfl : s.faulted .relRange = t := Host.Outcome.next.inj ((hfault s rest hf).symm.trans h)
    exact ⟨fun _ _ _ _ => ⟨rfl, rfl⟩, fun _ _ _ => ⟨rfl, rfl⟩, .inl rfl⟩
  · obtain rfl := Host.Outcome.next.inj ((hcomb s rest hf).symm.trans h)
    obtain ⟨-, hothers, hpc, honly⟩ := writeReg_advance_frame s (cur.base + d.toNat)
      (f (s.readReg (cur.base + d.toNat)) (s.readReg (cur.base + src.toNat)))
    refine ⟨fun a ha => ?_, fun c hc => ?_, .inr ⟨hpc, honly⟩⟩
    · obtain ⟨-, rfl⟩ := relAddr_ok_iff.1 ha
      exact hothers
    · obtain ⟨hle, -⟩ := relAddr_error_iff.1 hc
      exact absurd hlt (Nat.not_lt.2 hle)

/-- Settles O21: the two states have the same current frame, so both runs fault, or both write the same register of
the window with the same word, computed from registers of the window. -/
theorem aluSeesOnlyItsWindow : Obligations.AluSeesOnlyItsWindow := by
  intro i d hd s t cur rest other hf hwindow h
  rcases faults_or_combines_of_aluDest cur hd with hfault | ⟨hlt, src, f, hsrc, hcomb⟩
  · obtain rfl : s.faulted .relRange = t := Host.Outcome.next.inj ((hfault s rest hf).symm.trans h)
    exact ⟨_, hfault { s with regs := other } rest hf, rfl, hwindow, fun _ _ => ⟨⟨rfl, rfl⟩, ⟨rfl, rfl⟩⟩⟩
  · obtain rfl := Host.Outcome.next.inj ((hcomb s rest hf).symm.trans h)
    obtain ⟨hreadDst, -⟩ := hwindow (cur.base + d.toNat) (by omega) (by omega)
    obtain ⟨hreadSrc, -⟩ := hwindow (cur.base + src.toNat) (by omega) (by omega)
    have hother := hcomb { s with regs := other } rest hf
    rw [hreadDst, hreadSrc] at hother
    refine ⟨_, hother, rfl, fun j hlo hhi => regKept_writeReg_advance _ _ (hwindow j hlo hhi), fun j hout => ?_⟩
    have hne : j ≠ cur.base + d.toNat := by omega
    exact ⟨othersKept_writeReg_advance _ _ _ j hne, othersKept_writeReg_advance _ _ _ j hne⟩

/-- Settles O22: two in-place forms of one register apply the composition of their functions, which is the identity or
the addition of the sum. -/
theorem incrementsAndDecrementsCompose : Obligations.IncrementsAndDecrementsCompose := by
  intro s cur rest r hf hr
  refine ⟨aluInPlace_leftInverse hf hr (subW_addW_cancel 1#64),
    aluInPlace_leftInverse hf hr (addW_subW_cancel 1#64), fun v1 v2 => ?_⟩
  obtain ⟨t, u, v, ht, hu, hv, hkept⟩ := aluInPlace_comp hf hr (addW · v1) (addW · v2)
  rw [addW_comp_addW] at hv
  exact ⟨t, u, v, ht, hu, hv, hkept⟩

end Sys2Proof.Machine
end

section
/-! SUPPORT. States that differ only in values (R158): every instruction does the same to both, but for values. -/

namespace Sys2Proof.Machine

/-- The state with other register contents, another result and another argument of the free value. -/
def State.withValues (s : State) (r : RegFile) (v : Word) (n : Nat) : State :=
  { s with regs := r, result := v, initCount := n }

variable {s t : State} {r : RegFile} {v : Word} {n : Nat} {k k' : Nat → Out} {f f' : Frame → Out}

theorem sameButValues_iff : SameButValues s t ↔ ∃ r v n, t = s.withValues r v n :=
  ⟨fun h => ⟨_, _, _, h⟩, by rintro ⟨r, v, n, rfl⟩; rfl⟩

/-- The outcomes that agree but for values: next states that do, or one and the same stop. -/
theorem SameOutcomeButValues.cases {a b : Out} (h : SameOutcomeButValues a b) :
    (∃ s t, a = .next s ∧ b = .next t ∧ SameButValues s t) ∨ (∃ c, a = .fault c ∧ b = .fault c) ∨
      ∃ c, a = .refused c ∧ b = .refused c := by
  cases a with
  | next s =>
    cases b with
    | next t => exact .inl ⟨s, t, rfl, rfl, h⟩
    | _ => exact h.elim
  | fault c =>
    cases b with
    | fault c' => exact .inr (.inl ⟨c, rfl, congrArg _ (Eq.symm h)⟩)
    | _ => exact h.elim
  | refused c =>
    cases b with
    | refused c' => exact .inr (.inr ⟨c, rfl, congrArg _ (Eq.symm h)⟩)
    | _ => exact h.elim

/-- Whether a growth succeeds, and to which capacity, depends on no value. -/
theorem State.grow_withValues (s : State) (r : RegFile) (v : Word) (n need : Nat) :
    ∃ r', (s.withValues r v n).grow need = (s.grow need).map (·.withValues r' v n) := by
  cases hg : s.grow need with
  | none => exact ⟨r, grow_eq_none (s := s.withValues r v n).2 (grow_eq_none (s := s).1 hg)⟩
  | some g =>
    rcases grow_eq_some.1 hg with ⟨hle, rfl⟩ | ⟨hlt, hmax, rfl⟩
    · exact ⟨r, grow_eq_some.2 (.inl ⟨hle, rfl⟩)⟩
    · exact ⟨r.unwriteFrom s.cap, grow_eq_some (s := s.withValues r v n).2 (.inr ⟨hlt, hmax, rfl⟩)⟩

theorem withAddr_withValues {a : Except FaultCode Nat} (hk : ∀ i, SameOutcomeButValues (k i) (k' i)) :
    SameOutcomeButValues (withAddr s a k) (withAddr (s.withValues r v n) a k') := by
  cases a with
  | ok i => exact hk i
  | error c => rfl

theorem withCur_withValues (hf : ∀ cur, SameOutcomeButValues (f cur) (f' cur)) :
    SameOutcomeButValues (withCur s f) (withCur (s.withValues r v n) f') := by
  cases h : s.frames with
  | nil =>
    have h' : (s.withValues r v n).frames = [] := h
    simp only [withCur, h, h', SameOutcomeButValues]
  | cons cur rest =>
    rw [withCur_cons h, withCur_cons (s := s.withValues r v n) h]
    exact hf cur

theorem aluInPlace_withValues (d : Word) (g : Word → Word) :
    SameOutcomeButValues (aluInPlace d g s) (aluInPlace d g (s.withValues r v n)) :=
  withCur_withValues fun _ => withAddr_withValues fun _ => rfl

theorem execCall_withValues (p m d : Word) :
    SameOutcomeButValues (execCall p m d s) (execCall p m d (s.withValues r v n)) := by
  unfold execCall
  split
  · rfl
  · refine withCur_withValues fun cur => withAddr_withValues fun dabs => ?_
    obtain ⟨r', hg⟩ := s.grow_withValues r v n (s.inUse + m.toNat)
    rw [show (s.withValues r v n).inUse = s.inUse from rfl, hg]
    cases s.grow (s.inUse + m.toNat) with
    | none => rfl
    | some g =>
      change SameOutcomeButValues (if _ then _ else _) (if g.sp = g.params.maxFrames then _ else _)
      split <;> rfl

/-- A return reads a register only to pass its word on. -/
theorem execReturn_withValues : SameOutcomeButValues (execReturn s) (execReturn (s.withValues r v n)) := by
  refine withCur_withValues fun cur => withAddr_withValues fun i0 => ?_
  cases cur.link <;> rfl

theorem exec_withValues (i : Instr) : SameOutcomeButValues (exec i s) (exec i (s.withValues r v n)) := by
  cases i with
  | ret => exact execReturn_withValues
  | call p m d => exact execCall_withValues p m d
  | move d src => exact withAddr_withValues fun _ => withAddr_withValues fun _ => rfl
  | moveImmediate d w => exact withAddr_withValues fun _ => rfl
  | add d src => exact withCur_withValues fun _ => withAddr_withValues fun _ => withAddr_withValues fun _ => rfl
  | addImmediate d w => exact aluInPlace_withValues d fun a => addW a w
  | increment d => exact aluInPlace_withValues d fun a => addW a 1#64
  | decrement d => exact aluInPlace_withValues d fun a => subW a 1#64

/-- The step lemma of R158: status, fetch and decoding see no value, and the same instruction is executed. -/
theorem step_sameButValues (h : SameButValues s t) : SameOutcomeButValues (step s) (step t) := by
  obtain ⟨r, v, n, rfl⟩ := sameButValues_iff.1 h
  by_cases hr : s.status = .run
  · rcases step_of_run hr with ⟨hn, e⟩ | ⟨w, hw, ⟨x, hd, e⟩ | ⟨i, hd, e⟩⟩
    · rw [e, step_of_pc_past_end (s := s.withValues r v n) hr (State.fetch_eq_none.1 hn)]
      rfl
    · rw [e, step_of_undecodable (s := s.withValues r v n) hr hw (by simp [hd])]
      rfl
    · rw [e, step_of_fetched (s := s.withValues r v n) (State.fetched_eq_some.2 ⟨hr, w, hw, hd⟩)]
      exact exec_withValues i
  · rw [step_of_not_run hr, step_of_not_run (s := s.withValues r v n) hr]
    exact h

theorem runFor_sameButValues (j : Nat) (h : SameButValues s t) :
    SameOutcomeButValues (runFor j s) (runFor j t) := by
  induction j generalizing s t with
  | zero => exact h
  | succ j ih =>
    rcases (step_sameButValues h).cases with ⟨s', t', hs, ht, hst⟩ | ⟨c, hs, ht⟩ | ⟨c, hs, ht⟩
    · simpa only [runFor, hs, ht] using ih hst
    · simp only [runFor, hs, ht, SameOutcomeButValues]
    · simp only [runFor, hs, ht, SameOutcomeButValues]

end Sys2Proof.Machine
end

section
/-! SUPPORT. What a step can do to a core that goes on running (R82, R150). -/

namespace Sys2Proof.Machine

variable {s t : State}

/-- Everything that a step which leaves the core running can make of `s`: one register written and `pc` advanced, a
frame entered, or the current frame left for its caller. -/
inductive RunEffect (s : State) : State → Prop where
  | write (a : Nat) (v : Word) : RunEffect s (s.writeReg a v).advance
  | enter (g : State) (cur : Frame) (p n d : Word) (hg : s.grow (s.inUse + n.toNat) = some g) :
      RunEffect s (g.enterFrame (s.calleeFrame cur n d) p)
  | leave (cur : Frame) (rest : List Frame) (hf : s.frames = cur :: rest) :
      RunEffect s ((s.writeReg cur.dest (s.readReg cur.base)).leaveFrame cur)

theorem exec_runEffect {i : Instr} (h : exec i s = .next t) (ht : t.status = .run) : RunEffect s t := by
  by_cases hret : i = .ret
  · subst hret
    obtain ⟨cur, rest, hf, ⟨-, rfl⟩ | ⟨-, -, rfl⟩ | ⟨-, -, rfl⟩⟩ := execReturn_cases h
    · simp at ht
    · simp at ht
    · exact .leave cur rest hf
  · by_cases hcall : ∃ p n d, i = .call p n d
    · obtain ⟨p, n, d, rfl⟩ := hcall
      obtain ⟨cur, g, hg, rfl⟩ := enterFrame_of_exec_call_run h ht
      exact .enter g cur p n d hg
    · cases exec_sequential hret (by simpa using hcall) h with
      | fault c => simp at ht
      | write a v => exact .write a v

/-- A step that leaves the core running has fetched an instruction, executed it, and done one of the three. -/
theorem step_runEffect (hr : s.status = .run) (h : step s = .next t) (ht : t.status = .run) :
    s.pc.toNat < s.imem.length ∧ RunEffect s t := by
  rcases step_next_cases hr h with rfl | rfl | ⟨i, hi, h⟩
  · simp at ht
  · simp at ht
  · exact ⟨State.pc_lt_of_fetched hi, exec_runEffect h ht⟩

end Sys2Proof.Machine
end

section
/-! SUPPORT. How many steps a run has left (R159). -/

namespace Sys2Proof.Machine

variable {s t : State}

/-- R159's bound, one slot at a time: at each of the `n + 1` steps that a frame takes, a callee with the other slots. -/
theorem runBound_succ (n m : Nat) : runBound n (m + 1) = (n + 1) * (1 + runBound n m) := by
  induction m with
  | zero => simp [runBound]
  | succ m ih =>
    calc runBound n (m + 1) + (n + 1) ^ (m + 2)
      _ = (n + 1) * (1 + runBound n m) + (n + 1) ^ (m + 2) := by rw [ih]
      _ = (n + 1) * (1 + (runBound n m + (n + 1) ^ (m + 1))) := by ring

/-- How many steps a frame takes at most that goes on at `pc` in a program of `n` instructions, with `m` slots free
above it: every instruction may be a call that uses them all, and the last step is the frame's end. -/
def frameWork (n m : Nat) (pc : Word) : Nat := (n - pc.toNat) * (1 + runBound n m) + 1

/-- The same for all live frames, the current one at `pc` and each caller where it resumes; `m` is the number of
slots. -/
def stackWork (n m : Nat) : Word → List Frame → Nat
  | _, [] => 0
  | pc, f :: rest => frameWork n (m - (f :: rest).length) pc + stackWork n m f.resumePc rest

/-- The steps that a running core has left at most. -/
def State.work (s : State) : Nat := stackWork s.imem.length s.params.maxFrames s.pc s.frames

/-- A frame's work is within R159's bound for the slots from its own on, wherever it starts. -/
theorem frameWork_le (n m : Nat) (pc : Word) : frameWork n m pc ≤ runBound n (m + 1) := by
  rw [runBound_succ, frameWork, Nat.succ_mul]
  have : (n - pc.toNat) * (1 + runBound n m) ≤ n * (1 + runBound n m) := Nat.mul_le_mul_right _ (Nat.sub_le _ _)
  omega

/-- One instruction on, a frame has spent a step and whatever a callee could take. -/
theorem frameWork_succ {n m : Nat} {pc pc' : Word} (hpc : pc.toNat < n) (h' : pc'.toNat = pc.toNat + 1) :
    frameWork n m pc = frameWork n m pc' + (1 + runBound n m) := by
  have : n - pc.toNat = n - pc'.toNat + 1 := by omega
  rw [frameWork, frameWork, this]
  ring

/-- Every step that leaves the core running leaves less work. -/
theorem RunEffect.work_lt (he : RunEffect s t) (hi : s.Inv) (hr : s.status = .run)
    (hpc : s.pc.toNat < s.imem.length) (hsp : t.sp ≤ t.params.maxFrames) : t.work < s.work := by
  obtain ⟨cur, rest, hf⟩ := List.exists_cons_of_ne_nil (hi.live.2 (.inl hr))
  have hnext := fun m => frameWork_succ (m := m) hpc (hi.toNat_succ_pc hpc)
  cases he with
  | write a v =>
    simp [State.work, hf, stackWork, hnext]
  | enter g cur' p n d hg =>
    simp only [State.sp, State.enterFrame_frames, State.enterFrame_params, State.grow_frames hg,
      State.grow_params hg, hf, List.length_cons] at hsp
    have hslot : s.params.maxFrames - (rest.length + 1) = s.params.maxFrames - (rest.length + 1 + 1) + 1 := by omega
    have hcallee := hslot ▸ frameWork_le s.imem.length (s.params.maxFrames - (rest.length + 1 + 1)) p
    simp [State.work, State.grow_imem hg, State.grow_params hg, State.grow_frames hg, hf, stackWork, hnext,
      State.calleeFrame]
    omega
  | leave cur' rest' hf' =>
    simp [State.work, hf', stackWork, frameWork]

/-- R32's three ends of a run. -/
def State.Ended (s : State) : Prop := s.status = .done ∨ s.status = .failed ∨ s.status = .fault

/-- A step from RUN leaves the core running or ends its run. -/
theorem Effect.run_or_ended (he : Effect s t) (hr : s.status = .run) : t.status = .run ∨ t.Ended := by
  cases he with
  | fault c hc => exact .inr (.inr (.inr rfl))
  | write a v ha => exact .inl hr
  | exhausted => exact .inr (.inr (.inl rfl))
  | grownExhausted g need hg => exact .inr (.inr (.inl rfl))
  | enter g cur rest p n d hf hn hd hg hsp => exact .inl ((State.grow_status hg).trans hr)
  | finish v => exact .inr (.inl rfl)
  | leave cur rest k v hf hk => exact .inl hr

/-- What has ended stays as it is. -/
theorem State.Ended.runFor_eq (h : s.Ended) (k : Nat) : runFor k s = .next s := by
  have hr : s.status ≠ .run := by rcases h with h | h | h <;> simp [h]
  exact runFor_of_step_self (step_of_not_run hr) k

/-- As many steps as there is work end the run. -/
theorem runFor_ended {k : Nat} (hi : s.Inv) (hr : s.status = .run) (hk : s.work ≤ k) :
    ∃ u, runFor k s = .next u ∧ u.Ended := by
  induction k generalizing s with
  | zero =>
    obtain ⟨cur, rest, hf⟩ := List.exists_cons_of_ne_nil (hi.live.2 (.inl hr))
    simp [State.work, hf, stackWork, frameWork] at hk
  | succ k ih =>
    obtain ⟨t, ht⟩ := step_progress fun _ => hi.live.2 (.inl hr)
    rw [runFor, ht]
    have hti := step_inv hi ht
    rcases (step_effect hr ht).run_or_ended hr with hrun | hend
    · obtain ⟨hpc, he⟩ := step_runEffect hr ht hrun
      have hlt := he.work_lt hi hr hpc hti.sp_le
      exact ih hti hrun (by omega)
    · exact ⟨t, hend.runFor_eq k, hend⟩

/-- The root frame of an accepted start has all slots to work with. -/
theorem State.work_launched (s : State) (e : Word) (n : Nat) (hp : s.params.Ok) :
    (s.launched e n).work ≤ runBound s.imem.length s.params.maxFrames := by
  obtain ⟨-, -, hslots⟩ := hp
  have h := frameWork_le s.imem.length (s.params.maxFrames - 1) e
  rw [Nat.sub_add_cancel hslots] at h
  simpa [State.work, stackWork] using h

end Sys2Proof.Machine
end

section
/-! SUPPORT. A callee's frame stays on the stack until its return (R155, R157). -/

namespace Sys2Proof.Machine

variable {s t u : State} {f cur : Frame} {rest below : List Frame}

/-- A call that leaves the core running has put its callee's frame on the stack (R151). -/
theorem frames_of_exec_call_run {p n d : Word} (hf : s.frames = cur :: rest) (h : exec (.call p n d) s = .next t)
    (ht : t.status = .run) : t.frames = s.calleeFrame cur n d :: s.frames := by
  obtain ⟨cur', g, hg, rfl⟩ := enterFrame_of_exec_call_run h ht
  have htf : (g.enterFrame (s.calleeFrame cur' n d) p).frames = s.calleeFrame cur' n d :: s.frames :=
    congrArg _ (State.grow_frames hg)
  have hdest : cur'.base + d.toNat = cur.base + d.toNat := dest_of_exec_call hf h htf
  rw [htf, State.calleeFrame, State.calleeFrame, hdest]

/-- A step that does not bring the depth back keeps the frame `f` with all below it. -/
theorem RunEffect.keeps_suffix (he : RunEffect s t) (h : f :: below <:+ s.frames) (hsp : below.length < t.sp) :
    f :: below <:+ t.frames := by
  cases he with
  | write a v => exact h
  | enter g cur p n d hg => exact (State.grow_frames hg ▸ h).trans (List.suffix_cons _ _)
  | leave cur rest hf =>
    rw [State.leaveFrame_frames, State.writeReg_frames, hf, List.tail_cons]
    rcases List.suffix_cons_iff.1 (hf ▸ h) with heq | h
    · obtain ⟨rfl, rfl⟩ := List.cons.inj heq
      simp [State.sp, hf] at hsp
    · exact h

/-- The step that brings the depth back is the return of `f`. -/
theorem RunEffect.leaves (he : RunEffect s t) (h : f :: below <:+ s.frames) (hsp : t.sp ≤ below.length) :
    s.frames = f :: below ∧ t = (s.writeReg f.dest (s.readReg f.base)).leaveFrame f := by
  have hlen : below.length < s.sp := h.length_le
  cases he with
  | write a v => exact absurd hsp (Nat.not_le.2 hlen)
  | enter g cur p n d hg =>
    simp only [State.sp, State.enterFrame_frames, State.grow_frames hg, List.length_cons] at hsp hlen
    omega
  | leave cur rest hf =>
    rcases List.suffix_cons_iff.1 (hf ▸ h) with heq | h
    · obtain ⟨rfl, rfl⟩ := List.cons.inj heq
      exact ⟨hf, rfl⟩
    · have hrest : below.length < rest.length := h.length_le
      simp only [State.sp, State.leaveFrame_frames, State.writeReg_frames, hf, List.tail_cons] at hsp
      omega

/-- While a run goes on above the depth of `below`, it keeps the invariant and the frame `f` on top of `below`. -/
theorem runFor_keeps_suffix {k : Nat} (hi : s.Inv) (h : f :: below <:+ s.frames)
    (hdeep : ∀ j, j ≤ k → ∃ w, runFor j s = .next w ∧ w.status = .run ∧ below.length < w.sp)
    (hu : runFor k s = .next u) : u.Inv ∧ u.status = .run ∧ f :: below <:+ u.frames := by
  induction k generalizing s with
  | zero =>
    obtain ⟨w, hw, hr, -⟩ := hdeep 0 (Nat.zero_le _)
    obtain rfl : s = u := Host.Outcome.next.inj hu
    obtain rfl : s = w := Host.Outcome.next.inj hw
    exact ⟨hi, hr, h⟩
  | succ k ih =>
    obtain ⟨w, hw, hr, -⟩ := hdeep 0 (Nat.zero_le _)
    obtain rfl : s = w := Host.Outcome.next.inj hw
    obtain ⟨t, ht⟩ := step_progress fun _ => hi.live.2 (.inl hr)
    have hrun : ∀ j, runFor (j + 1) s = runFor j t := fun j => by rw [runFor, ht]
    have hdeep' : ∀ j, j ≤ k → ∃ w, runFor j t = .next w ∧ w.status = .run ∧ below.length < w.sp :=
      fun j hj => hrun j ▸ hdeep (j + 1) (Nat.succ_le_succ hj)
    obtain ⟨w, hw, htr, hsp⟩ := hdeep' 0 (Nat.zero_le _)
    obtain rfl : t = w := Host.Outcome.next.inj hw
    obtain ⟨-, he⟩ := step_runEffect hr ht htr
    exact ih (step_inv hi ht) (he.keeps_suffix h hsp) hdeep' (hrun k ▸ hu)

end Sys2Proof.Machine
end

section
/-! SUPPORT. The remaining equations of `call` and `return` (R151, R156). -/

namespace Sys2Proof.Machine

variable {s : State} {cur : Frame} {rest : List Frame}

theorem exec_call_of_frameSize_eq_zero {n : Word} (hn : n.toNat = 0) (p d : Word) (s : State) :
    exec (.call p n d) s = .next (s.faulted .zeroFrame) := by
  simp only [exec, execCall, if_pos hn, raiseFault]

/-- The return of the root (R156). -/
theorem exec_ret_of_root (hf : s.frames = cur :: rest) (hk : cur.link = none) (hlen : 1 ≤ cur.len) :
    exec .ret s = .next (s.finished (s.readReg cur.base)) := by
  have h0 : (0#64).toNat < cur.len := hlen
  simp only [exec, execReturn, withCur_cons hf, withAddr_relAddr_of_lt h0, hk, BitVec.toNat_ofNat,
    Nat.zero_mod, Nat.add_zero]

/-- Under the invariant a frame without a caller is the root, at base 0, and alone (R26). -/
theorem State.Inv.root_of_link_none (hi : s.Inv) (hf : s.frames = cur :: rest) (hk : cur.link = none) :
    cur.base = 0 ∧ rest = [] := by
  rcases hi.cur_cases hf with ⟨hrest, -, hbase, -⟩ | ⟨_, _, -, hlink, -⟩
  · exact ⟨hbase, hrest⟩
  · rw [hk] at hlink
    cases hlink

end Sys2Proof.Machine
end

section
/-! Obligations of the frame-stack controller (42_frame_control.md). -/

namespace Sys2Proof.Machine

/-- Settles O54: a step keeps the agreement of two states but for values, and so does any number of steps. -/
theorem controlNeverDependsOnRegisterValues : Obligations.ControlNeverDependsOnRegisterValues :=
  fun _ _ k h => runFor_sameButValues k h

/-- Settles O55: the work left falls at every step, and after a start it is within the bound. -/
theorem everyRunEnds : Obligations.EveryRunEnds := by
  intro s t e r hi h
  have hti := start_inv hi h
  obtain ⟨-, rfl⟩ := start_cases h
  rcases launch_cases s e r with ⟨-, hl⟩ | ⟨g, -, hl⟩
  · have hend : (launch e r s).Ended := .inr (.inl (by rw [hl]; rfl))
    exact ⟨_, hend.runFor_eq _, hend⟩
  · rw [hl] at hti ⊢
    exact runFor_ended hti rfl (g.cleared.work_launched e r.toNat hti.params_ok)

/-- Settles O60: the callee's frame stays on top of the caller's stack until the return that pops it. -/
theorem calleeReturnsBehindItsCall : Obligations.CalleeReturnsBehindItsCall := by
  intro s t u v k cur p n d hi hcur hfetch hst htr hdeep hv hvu hur hsp
  have hpc := hi.toNat_succ_pc (State.pc_lt_of_fetched hfetch)
  obtain ⟨rest, hf⟩ := List.head?_eq_some_iff.1 hcur
  have htf := frames_of_exec_call_run hf (step_of_fetched hfetch ▸ hst) htr
  have hentry : s.calleeFrame cur n d :: s.frames <:+ t.frames := htf ▸ List.suffix_rfl
  obtain ⟨hvi, hvr, hsuffix⟩ := runFor_keeps_suffix (step_inv hi hst) hentry hdeep hv
  obtain ⟨-, he⟩ := step_runEffect hvr hvu hur
  obtain ⟨hvf, rfl⟩ := he.leaves hsuffix hsp
  have huse : v.inUse = s.inUse + n.toNat := hvi.inUse_eq _ (by rw [hvf]; rfl)
  refine ⟨?_, hpc, ?_, v.readReg_writeReg_self _ _⟩
  · rw [State.leaveFrame_frames, State.writeReg_frames, hvf, List.tail_cons]
  · rw [State.leaveFrame_inUse, State.writeReg_inUse, huse]
    exact Nat.add_sub_cancel _ _

/-- Settles O23: the call passes every check, and its growth keeps what existed. -/
theorem callCreatesFrame : Obligations.CallCreatesFrame := by
  intro s cur rest p n d hf hn hd hres hsp
  obtain ⟨g, hg⟩ := State.exists_grow hres
  obtain ⟨hgeq, hcap, hregs⟩ := State.grow_frame hg
  have hgf := State.grow_frames hg
  refine ⟨_, exec_call_of_grow hf (Nat.one_le_iff_ne_zero.1 hn) hd hg hsp, congrArg _ hgf, ?_,
    congrArg (· + n.toNat) (State.grow_inUse hg), rfl, hcap, hregs,
    fun _ => State.written_grow_new (g := g) hg, ?_⟩
  · simp only [State.sp, State.enterFrame_frames, hgf, List.length_cons]
  · rw [hgeq]
    rfl

/-- Settles O27, the outcomes of a call: the first three have no new register, and the two behind a growth keep and
create registers as the growth does. -/
theorem callFrame : Obligations.CallFrame := by
  intro s t p n d h
  have hnone : ∀ i, s.cap ≤ i → i < s.cap → s.written i = false := fun _ hlo hhi => absurd hhi (Nat.not_lt.2 hlo)
  rcases execCall_cases h with ⟨-, rfl⟩ | ⟨cur, rest, -, -, ⟨-, rfl⟩ | ⟨-, -, rfl⟩ | ⟨g, -, hg, hout⟩⟩
  · exact ⟨fun _ _ => ⟨rfl, rfl⟩, hnone, .inl rfl⟩
  · exact ⟨fun _ _ => ⟨rfl, rfl⟩, hnone, .inr (.inl rfl)⟩
  · exact ⟨fun _ _ => ⟨rfl, rfl⟩, hnone, .inr (.inr (.inl rfl))⟩
  · obtain ⟨hgeq, -, hregs⟩ := State.grow_frame hg
    rcases hout with ⟨-, rfl⟩ | ⟨-, rfl⟩
    · refine ⟨hregs, fun _ => State.written_grow_new (g := g) hg, .inr (.inr (.inl ?_))⟩
      rw [hgeq]
      rfl
    · refine ⟨hregs, fun _ => State.written_grow_new (g := g) hg, .inr (.inr (.inr ?_))⟩
      rw [hgeq]
      rfl

/-- Settles O29, the return of a callee. -/
theorem returnDeliversToCaller : Obligations.ReturnDeliversToCaller := by
  intro s cur rest k hf hk hlen
  refine ⟨_, exec_ret_of_link hf hk hlen, s.readReg_writeReg_self _ _, s.written_writeReg_self _ _,
    fun j hj => ⟨s.readReg_writeReg_ne _ hj, s.written_writeReg_ne _ hj⟩, rfl, fun hi => ?_, rfl,
    congrArg List.tail hf, rfl⟩
  have huse := hi.inUse_eq cur (by rw [hf]; rfl)
  rw [State.leaveFrame_inUse, State.writeReg_inUse, huse, Nat.add_sub_cancel]

/-- Settles O31, the three outcomes of a return. -/
theorem returnFrame : Obligations.ReturnFrame := by
  intro s t cur rest hf h
  obtain ⟨cur', rest', hf', hout⟩ := execReturn_cases h
  obtain ⟨rfl, -⟩ := List.cons.inj (hf.symm.trans hf')
  rcases hout with ⟨hlen, rfl⟩ | ⟨hlen, hk, rfl⟩ | ⟨hlen, ⟨k, hk⟩, rfl⟩
  · exact ⟨fun _ _ => ⟨rfl, rfl⟩, .inl ⟨hlen, rfl⟩⟩
  · exact ⟨fun _ _ => ⟨rfl, rfl⟩, .inr (.inl ⟨hlen, hk, rfl⟩)⟩
  · exact ⟨fun j hj => ⟨s.readReg_writeReg_ne _ hj, s.written_writeReg_ne _ hj⟩,
      .inr (.inr ⟨hlen, by simp [hk], rfl⟩)⟩

/-- Settles O38: only a return ends in DONE, and only the root's. -/
theorem onlyTheRootReturnSucceeds : Obligations.OnlyTheRootReturnSucceeds := by
  intro s t hi hr h hd
  rcases step_next_cases hr h with rfl | rfl | ⟨i, hfetch, h⟩
  · simp at hd
  · simp at hd
  · obtain rfl := eq_ret_of_exec_done hr h hd
    obtain ⟨cur, rest, hf, ⟨-, rfl⟩ | ⟨-, hk, rfl⟩ | ⟨-, -, rfl⟩⟩ := execReturn_cases h
    · simp at hd
    · obtain ⟨hbase, rfl⟩ := hi.root_of_link_none hf hk
      exact ⟨hfetch, congrArg List.length hf, congrArg s.readReg hbase⟩
    · simp [hr] at hd

/-- Settles O39: the others are sequential. -/
theorem onlyCallAndReturnMoveFrames : Obligations.OnlyCallAndReturnMoveFrames := by
  intro i s t hret hcall h
  cases exec_sequential hret hcall h with
  | fault c => exact ⟨rfl, rfl, rfl, .inr ⟨c, rfl⟩⟩
  | write a v => exact ⟨rfl, rfl, rfl, .inl rfl⟩

/-- Settles O24, the two operand faults of a call. -/
theorem callOperandFaultsComeFirst : Obligations.CallOperandFaultsComeFirst :=
  fun s _ _ p _ d hf => ⟨fun hn => exec_call_of_frameSize_eq_zero hn p d s, exec_call_of_dest_le hf⟩

/-- Settles O30, the return of the root. -/
theorem rootReturnEndsTheRun : Obligations.RootReturnEndsTheRun :=
  fun _ _ _ hf hk hlen => ⟨exec_ret_of_root hf hk hlen, fun hi => hi.root_of_link_none hf hk⟩

end Sys2Proof.Machine
end

section
/-! SUPPORT. The two abnormal outcomes (60_exceptions.md): which causes a fault has and what it records, when a call and
a start are exhausted, and that no step and no start leaves FAULT or FAILED. -/

namespace Sys2Proof.Machine

variable {s t g : State} {cur : Frame} {rest : List Frame} {i : Instr} {p n d e r : Word}

/-! ## FAULT and FAILED are final (R182, R186, R211) -/

/-- No step changes a core in FAULT or FAILED, and every start is refused. -/
theorem final_of_fault_or_failed (h : s.status = .fault ∨ s.status = .failed) :
    (∀ k, runFor k s = .next s) ∧ ∀ e r, start e r s = .refused .startNotAccepted := by
  refine ⟨State.Ended.runFor_eq (.inr h.symm), fun e r => ?_⟩
  rcases h with h | h
  · simp only [start, h]
  · simp only [start, h]

/-! ## The causes of a fault (R181) -/

/-- R181's columns "cause" and "raised by": when the next step of a running core raises the code. -/
def FaultCause (s : State) : FaultCode → Prop
  | .none => False
  | .fetchRange => s.imem.length ≤ s.pc.toNat
  | .illegalInstruction => ∃ w e, s.imem[s.pc.toNat]? = some w ∧ decodeWord w = .error e
  | .absRange =>
    (∃ d src, s.fetched = some (.move d src) ∧ (s.cap ≤ d.toNat ∨ s.cap ≤ src.toNat)) ∨
      (∃ d v, s.fetched = some (.moveImmediate d v) ∧ s.cap ≤ d.toNat)
  | .relRange => ∃ cur rest, s.frames = cur :: rest ∧
      ((∃ d src, s.fetched = some (.add d src) ∧ (cur.len ≤ d.toNat ∨ cur.len ≤ src.toNat)) ∨
        (∃ d v, s.fetched = some (.addImmediate d v) ∧ cur.len ≤ d.toNat) ∨
        (∃ r, s.fetched = some (.increment r) ∧ cur.len ≤ r.toNat) ∨
        (∃ r, s.fetched = some (.decrement r) ∧ cur.len ≤ r.toNat) ∨
        (s.fetched = some .ret ∧ cur.len = 0))
  | .zeroFrame => ∃ p n d, s.fetched = some (.call p n d) ∧ n.toNat = 0
  | .destRange => ∃ cur rest p n d, s.frames = cur :: rest ∧
      s.fetched = some (.call p n d) ∧ n.toNat ≠ 0 ∧ cur.len ≤ d.toNat

/-- An in-place ALU form faults only on an index outside the window of the current frame (R53, R120). -/
theorem aluInPlace_fault {r : Word} {f : Word → Word} (hr : s.status = .run) (h : aluInPlace r f s = .next t)
    (ht : t.status = .fault) : t.faultCode = .relRange ∧ ∃ cur rest, s.frames = cur :: rest ∧ cur.len ≤ r.toNat := by
  obtain ⟨cur, rest, hf, ⟨hle, rfl⟩ | ⟨-, rfl⟩⟩ := aluInPlace_cases h
  · exact ⟨rfl, cur, rest, hf, hle⟩
  · simp [hr] at ht

/-- A fault of the executed instruction has the cause of its code. -/
theorem faultCause_of_exec (hfetch : s.fetched = some i) (h : exec i s = .next t) (ht : t.status = .fault) :
    FaultCause s t.faultCode := by
  obtain ⟨hr, -⟩ := State.fetched_eq_some.1 hfetch
  cases i with
  | ret =>
    obtain ⟨cur, rest, hf, ⟨hlen, rfl⟩ | ⟨-, -, rfl⟩ | ⟨-, -, rfl⟩⟩ := execReturn_cases h
    · exact ⟨cur, rest, hf, .inr (.inr (.inr (.inr ⟨hfetch, hlen⟩)))⟩
    · simp at ht
    · simp [hr] at ht
  | call p n d =>
    rcases execCall_cases h with ⟨hn, rfl⟩ | ⟨cur, rest, hf, hn, hout⟩
    · exact ⟨p, n, d, hfetch, hn⟩
    · rcases hout with ⟨hd, rfl⟩ | ⟨-, -, rfl⟩ | ⟨g, -, hg, ⟨-, rfl⟩ | ⟨-, rfl⟩⟩
      · exact ⟨cur, rest, p, n, d, hf, hfetch, hn, hd⟩
      · simp at ht
      · simp at ht
      · simp [State.grow_status hg, hr] at ht
  | move d src =>
    rcases execMove_cases h with ⟨hle, rfl⟩ | ⟨-, -, rfl⟩
    · exact .inl ⟨d, src, hfetch, hle⟩
    · simp [hr] at ht
  | moveImmediate d v =>
    rcases execMoveImmediate_cases h with ⟨hle, rfl⟩ | ⟨-, rfl⟩
    · exact .inr ⟨d, v, hfetch, hle⟩
    · simp [hr] at ht
  | add d src =>
    obtain ⟨cur, rest, hf, ⟨hle, rfl⟩ | ⟨-, -, rfl⟩⟩ := execAdd_cases h
    · exact ⟨cur, rest, hf, .inl ⟨d, src, hfetch, hle⟩⟩
    · simp [hr] at ht
  | addImmediate d v =>
    obtain ⟨hc, cur, rest, hf, hle⟩ := aluInPlace_fault hr (exec_addImmediate d v s ▸ h) ht
    exact hc ▸ ⟨cur, rest, hf, .inr (.inl ⟨d, v, hfetch, hle⟩)⟩
  | increment r =>
    obtain ⟨hc, cur, rest, hf, hle⟩ := aluInPlace_fault hr (exec_increment r s ▸ h) ht
    exact hc ▸ ⟨cur, rest, hf, .inr (.inr (.inl ⟨r, hfetch, hle⟩))⟩
  | decrement r =>
    obtain ⟨hc, cur, rest, hf, hle⟩ := aluInPlace_fault hr (exec_decrement r s ▸ h) ht
    exact hc ▸ ⟨cur, rest, hf, .inr (.inr (.inr (.inl ⟨r, hfetch, hle⟩)))⟩

/-- A step into FAULT has the cause of the code it records. -/
theorem faultCause_of_step (hr : s.status = .run) (h : step s = .next t) (ht : t.status = .fault) :
    FaultCause s t.faultCode := by
  rcases step_of_run hr with ⟨hn, hstep⟩ | ⟨w, hw, ⟨e, he, hstep⟩ | ⟨i, hi, hstep⟩⟩
  · obtain rfl := Host.Outcome.next.inj (hstep.symm.trans h)
    exact State.fetch_eq_none.1 hn
  · obtain rfl := Host.Outcome.next.inj (hstep.symm.trans h)
    exact ⟨w, e, hw, he⟩
  · exact faultCause_of_exec (State.fetched_eq_some.2 ⟨hr, w, hw, hi⟩) (hstep.symm.trans h) ht

/-- A cause of a code makes the step raise it. -/
theorem step_of_faultCause {c : FaultCode} (hr : s.status = .run) (h : FaultCause s c) :
    step s = .next (s.faulted c) := by
  cases c with
  | none => exact h.elim
  | fetchRange => exact step_of_pc_past_end hr h
  | illegalInstruction =>
    obtain ⟨w, e, hw, he⟩ := h
    exact step_of_undecodable hr hw fun i hi => by simp [he] at hi
  | absRange =>
    rcases h with ⟨d, src, hfetch, hle⟩ | ⟨d, v, hfetch, hle⟩
    · exact (step_of_fetched hfetch).trans (exec_move_of_le hle)
    · exact (step_of_fetched hfetch).trans (exec_moveImmediate_of_le hle v)
  | relRange =>
    obtain ⟨cur, rest, hf, ⟨d, src, hfetch, hle⟩ | ⟨d, v, hfetch, hle⟩ | ⟨r, hfetch, hle⟩ | ⟨r, hfetch, hle⟩ |
      ⟨hfetch, hlen⟩⟩ := h
    · exact (step_of_fetched hfetch).trans (exec_add_of_le hf hle)
    · exact (step_of_fetched hfetch).trans ((exec_addImmediate d v s).trans (aluInPlace_of_le hf hle _))
    · exact (step_of_fetched hfetch).trans ((exec_increment r s).trans (aluInPlace_of_le hf hle _))
    · exact (step_of_fetched hfetch).trans ((exec_decrement r s).trans (aluInPlace_of_le hf hle _))
    · exact (step_of_fetched hfetch).trans (exec_ret_of_len_eq_zero hf hlen)
  | zeroFrame =>
    obtain ⟨p, n, d, hfetch, hn⟩ := h
    exact (step_of_fetched hfetch).trans (exec_call_of_frameSize_eq_zero hn p d s)
  | destRange =>
    obtain ⟨cur, rest, p, n, d, hf, hfetch, hn, hd⟩ := h
    exact (step_of_fetched hfetch).trans (exec_call_of_dest_le hf hn hd)

/-- A step is deterministic: the code that it records is the one whose cause is there. -/
theorem faultCode_eq_iff (hr : s.status = .run) (h : step s = .next t) (ht : t.status = .fault) (c : FaultCode) :
    t.faultCode = c ↔ FaultCause s c := by
  refine ⟨fun hc => hc ▸ faultCause_of_step hr h ht, fun hc => ?_⟩
  obtain rfl := Host.Outcome.next.inj (h.symm.trans (step_of_faultCause hr hc))
  rfl

/-! ## Exhaustion (R185, R186) -/

section

variable (hf : s.frames = cur :: rest) (hn : n.toNat ≠ 0) (hd : d.toNat < cur.len)
include hf hn hd

/-- The call whose growth would need a capacity above MAX_REGS (R58, R151). -/
theorem exec_call_of_grow_eq_none (hg : s.grow (s.inUse + n.toNat) = none) :
    exec (.call p n d) s = .next s.exhausted := by
  simp only [exec, execCall, if_neg hn, withCur_cons hf, destAddr_ok_iff.2 ⟨hd, rfl⟩, withAddr_ok, hg, raiseExhausted]

/-- The call that finds no frame slot after its growth (R151). -/
theorem exec_call_of_no_slot (hg : s.grow (s.inUse + n.toNat) = some g) (hsp : s.sp = s.params.maxFrames) :
    exec (.call p n d) s = .next g.exhausted := by
  have hgsp : g.sp = g.params.maxFrames := by
    rwa [State.sp, State.grow_frames hg, State.grow_params hg]
  simp only [exec, execCall, if_neg hn, withCur_cons hf, destAddr_ok_iff.2 ⟨hd, rfl⟩, withAddr_ok, hg,
    if_pos hgsp, raiseExhausted]

/-- A call with legal operands is exhausted exactly when its growth fails or no frame slot is free (R151). -/
theorem exec_call_exhausted_iff (hr : s.status = .run) :
    (∃ t, exec (.call p n d) s = .next t ∧ t.status = .failed ∧ t.err = .resourceExhausted) ↔
      s.grow (s.inUse + n.toNat) = none ∨ s.sp = s.params.maxFrames := by
  cases hg : s.grow (s.inUse + n.toNat) with
  | none => exact iff_of_true ⟨_, exec_call_of_grow_eq_none hf hn hd hg, rfl, rfl⟩ (.inl rfl)
  | some g =>
    by_cases hsp : s.sp = s.params.maxFrames
    · exact iff_of_true ⟨_, exec_call_of_no_slot hf hn hd hg hsp, rfl, rfl⟩ (.inr hsp)
    · refine iff_of_false ?_ (by simp [hsp])
      rintro ⟨t, h, ht, -⟩
      obtain rfl := Host.Outcome.next.inj ((exec_call_of_grow hf hn hd hg hsp).symm.trans h)
      simp [State.grow_status hg, hr] at ht

end

/-- An accepted start enters the launch (R211). -/
theorem start_of_idle_or_done (h : s.status = .idle ∨ s.status = .done) (e r : Word) :
    start e r s = .next (launch e r s) := by
  rcases h with h | h
  · simp only [start, h]
  · simp only [start, h]

/-- A launch fails exactly when its root window cannot be had, and then by exhaustion (R212). -/
theorem launch_failed_iff : (launch e r s).status = .failed ↔ s.grow r.toNat = none := by
  rcases launch_cases s e r with ⟨hg, h⟩ | ⟨g, hg, h⟩
  · simp [h, hg]
  · simp [h, hg]

/-- A launch that fails has not grown: it clears and unwinds (R186, R212). -/
theorem launch_of_failed (h : (launch e r s).status = .failed) :
    launch e r s = s.cleared.exhausted := by
  rcases launch_cases s e r with ⟨-, hl⟩ | ⟨g, hg, -⟩
  · exact hl
  · simp [launch_failed_iff.1 h] at hg

/-- Only a call ends in FAILED: a sequential instruction and a return do not exhaust (R185). -/
theorem eq_call_of_exec_failed (hr : s.status = .run) (h : exec i s = .next t) (ht : t.status = .failed) :
    ∃ p n d, i = .call p n d := by
  by_contra hcall
  by_cases hret : i = .ret
  · subst hret
    obtain ⟨cur, rest, -, ⟨-, rfl⟩ | ⟨-, -, rfl⟩ | ⟨-, -, rfl⟩⟩ := execReturn_cases h
    · simp at ht
    · simp at ht
    · simp [hr] at ht
  · cases exec_sequential hret (by simpa using hcall) h with
    | fault c => simp at ht
    | write a v => simp [hr] at ht

/-- What is exhausted is the state itself or what a successful growth has made of it (R186); the state itself is the
growth to a need of 0. -/
theorem Effect.of_failed (he : Effect s t) (hr : s.status = .run) (ht : t.status = .failed) :
    ∃ g need, s.grow need = some g ∧ t = g.exhausted := by
  cases he with
  | fault c hc => simp at ht
  | write a v ha => simp [hr] at ht
  | exhausted => exact ⟨s, 0, State.grow_eq_some.2 (.inl ⟨Nat.zero_le _, rfl⟩), rfl⟩
  | grownExhausted g need hg => exact ⟨g, need, hg, rfl⟩
  | enter g cur rest p n d hf hn hd hg hsp => simp [State.grow_status hg, hr] at ht
  | finish v => simp at ht
  | leave cur rest k v hf hk => simp [hr] at ht

/-- A step into FAILED has executed a call. -/
theorem fetched_call_of_step_failed (hr : s.status = .run) (h : step s = .next t) (ht : t.status = .failed) :
    ∃ p n d, s.fetched = some (.call p n d) := by
  rcases step_next_cases hr h with rfl | rfl | ⟨i, hfetch, h⟩
  · simp at ht
  · simp at ht
  · obtain ⟨p, n, d, rfl⟩ := eq_call_of_exec_failed hr h ht
    exact ⟨p, n, d, hfetch⟩

end Sys2Proof.Machine
end

section
/-! Obligations of the exceptions (60_exceptions.md). -/

namespace Sys2Proof.Machine

/-- Settles O26: a call and an accepted start are exhausted by a growth that fails, a call also by the frame slots. -/
theorem exhaustionCauses : Obligations.ExhaustionCauses := by
  refine ⟨fun s cur rest p n d hr hf hn hd => ?_, fun s e r hs => ?_⟩
  · rw [exec_call_exhausted_iff hf hn hd hr, State.grow_eq_none]
  · rw [← State.grow_eq_none, ← launch_failed_iff (e := e), start_of_idle_or_done hs]
    constructor
    · rintro ⟨t, h, ht, -⟩
      exact Host.Outcome.next.inj h ▸ ht
    · intro h
      exact ⟨_, rfl, h, by rw [launch_of_failed h]; rfl⟩

/-- Settles O35: the only effect that leaves FAULT is R182's. -/
theorem faultsArePrecise : Obligations.FaultsArePrecise := by
  intro s t hr h ht
  obtain ⟨c, hc, rfl⟩ := (step_effect hr h).of_fault hr ht
  exact ⟨rfl, hc, final_of_fault_or_failed (.inl ht)⟩

/-- Settles O36, row by row of R181's table `FaultCause`. -/
theorem faultCodesNameTheirCauses : Obligations.FaultCodesNameTheirCauses := by
  intro s t hr h ht
  have hcode := faultCode_eq_iff hr h ht
  exact ⟨hcode .fetchRange, hcode .illegalInstruction, hcode .absRange, hcode .relRange, hcode .zeroFrame,
    hcode .destRange⟩

/-- Settles O37: a failed step is a call's, whose growth keeps and creates registers as every growth does; a failed
start has not grown. -/
theorem exhaustionUnwindsEveryFrame : Obligations.ExhaustionUnwindsEveryFrame := by
  refine ⟨fun s t hr h ht => ?_, fun s t e r h ht => ?_⟩
  · have hcall := fetched_call_of_step_failed hr h ht
    obtain ⟨g, need, hg, rfl⟩ := (step_effect hr h).of_failed hr ht
    obtain ⟨hgeq, hcap, hregs⟩ := State.grow_frame hg
    refine ⟨?_, hcap ▸ s.cap_le_capFor need, hregs, fun _ => State.written_grow_new (g := g) hg, hcall,
      final_of_fault_or_failed (.inr ht)⟩
    rw [hgeq]
    rfl
  · obtain ⟨-, rfl⟩ := start_cases h
    exact ⟨launch_of_failed ht, final_of_fault_or_failed (.inr ht)⟩

end Sys2Proof.Machine
end

section
/-! SUPPORT. What `init` and a start answer, as equations: `init` within R6's bounds, a start in each status, and the
launch by whether its growth succeeds (70_reset_and_hazards.md). -/

namespace Sys2Proof.Machine

variable {s g : State} {e r : Word}

theorem init_of_bounds {program : List IWord} {initCap : Nat} (hp : s.params.Ok) (hn : program.length < 2 ^ 64)
    (hc : initCap ≤ s.params.maxRegs) :
    init program initCap s = .next (State.afterInit s.params (s.initCount + 1) program initCap) := by
  rw [init, if_neg (not_not_intro hp), if_neg (not_not_intro hn), if_neg (not_not_intro hc)]

/-- A start is refused in the three statuses from which it is not accepted (R211). -/
theorem start_of_run_or_failed_or_fault (h : s.status = .run ∨ s.status = .failed ∨ s.status = .fault) (e r : Word) :
    start e r s = .refused .startNotAccepted := by
  rcases h with h | h
  · simp only [start, h]
  · exact (final_of_fault_or_failed h.symm).2 e r

theorem Status.accepts_or_refuses (x : Status) :
    (x = .idle ∨ x = .done) ∨ (x = .run ∨ x = .failed ∨ x = .fault) := by
  cases x <;> decide

theorem launch_of_grow_eq_none (hg : s.grow r.toNat = none) (e : Word) : launch e r s = s.cleared.exhausted :=
  launch_of_failed (launch_failed_iff.2 hg)

theorem launch_of_grow (hg : s.grow r.toNat = some g) (e : Word) :
    launch e r s = g.cleared.launched e r.toNat := by
  rcases launch_cases s e r with ⟨hnone, -⟩ | ⟨g', hg', h⟩
  · rw [hg] at hnone
    cases hnone
  · obtain rfl : g = g' := Option.some.inj (hg.symm.trans hg')
    exact h

theorem State.grow_result {need : Nat} (hg : s.grow need = some g) : g.result = s.result := by rw [(grow_frame hg).1]

theorem State.grow_faultPc {need : Nat} (hg : s.grow need = some g) : g.faultPc = s.faultPc := by
  rw [(grow_frame hg).1]

/-- Only an `init` can change a core in FAULT or FAILED: a start is refused there, and a step does nothing. -/
theorem eq_init_of_transact_ne {t : State} {c : HostCommand} (hs : s.status = .fault ∨ s.status = .failed)
    (h : transact c s = .next t) (hne : t ≠ s) : ∃ program initCap, c = .init program initCap := by
  obtain ⟨-, hstart⟩ := final_of_fault_or_failed hs
  cases c with
  | init program initCap => exact ⟨program, initCap, rfl⟩
  | start e r => cases (hstart e r).symm.trans h
  | step =>
    have hr : s.status ≠ .run := fun hr => by simp [hr] at hs
    exact absurd (eq_of_step_of_not_run hr h) hne

end Sys2Proof.Machine
end

section
/-! Obligations of `init` and start (70_reset_and_hazards.md). -/

namespace Sys2Proof.Machine

/-- Settles O43: `init` gives each value of `State.afterInit`, whose status IDLE runs nothing. -/
theorem initResetsEverything : Obligations.InitResetsEverything := by
  refine ⟨fun s program initCap hp hn hc => ?_, fun s t c => eq_init_of_transact_ne⟩
  exact ⟨_, init_of_bounds hp hn hc, rfl, rfl, fun _ => rfl, rfl, rfl, rfl, rfl, rfl, rfl, rfl, rfl, rfl,
    runFor_of_step_self rfl⟩

/-- Settles O46: the growth succeeds, the launch enters the root frame over it, and the first fetch and the return see
that frame and `entry_pc`. -/
theorem startEntersTheRootFrame : Obligations.StartEntersTheRootFrame := by
  intro s e r hs hcap
  obtain ⟨g, hg⟩ := State.exists_grow hcap
  obtain ⟨-, -, hregs⟩ := State.grow_frame hg
  have himem : (g.cleared.launched e r.toNat).imem = s.imem := State.grow_imem (g := g) hg
  refine ⟨g.cleared.launched e r.toNat, (start_of_idle_or_done hs e r).trans (congrArg _ (launch_of_grow hg e)),
    rfl, rfl, rfl, rfl, rfl, hregs, State.grow_result (g := g) hg, State.grow_faultPc (g := g) hg, himem,
    fun hpc => ?_, fun hlen => ?_⟩
  · exact step_of_pc_past_end rfl (by rwa [himem])
  · exact exec_ret_of_len_eq_zero (cur := rootFrame r.toNat) rfl hlen

/-- Settles O44: a start answers a next state in IDLE and DONE and a refusal in the other three. -/
theorem startAcceptedOnlyIdleOrDone : Obligations.StartAcceptedOnlyIdleOrDone := by
  intro s e r
  refine ⟨⟨fun ⟨t, h⟩ => (start_cases h).1, fun hs => ⟨_, start_of_idle_or_done hs e r⟩⟩, fun h => ?_,
    fun hs => start_of_run_or_failed_or_fault hs e r⟩
  refine s.status.accepts_or_refuses.resolve_left fun hs => ?_
  cases h.symm.trans (start_of_idle_or_done hs e r)

/-- Settles O45, the launch by whether its growth succeeds. -/
theorem startGrowsTheRegisterFile : Obligations.StartGrowsTheRegisterFile := by
  intro s e r hs
  rw [start_of_idle_or_done hs]
  refine ⟨fun hg => ?_, fun g hg => ⟨_, rfl, ?_⟩⟩
  · rw [launch_of_grow_eq_none hg]
    rfl
  · rw [launch_of_grow hg]
    exact ⟨rfl, rfl, rfl, rfl⟩

end Sys2Proof.Machine
end
